-- ==== Sys2Proof/Word.lean ====
section
/-! DEFINITION. The patterns of the block: the 32-bit register and command word and the 16-bit half-word (spec/00_scope.md R8,
R12, R13). A format (Q0.15, Q16.16, ...) is a way a command reads a pattern and is never stored with it (R10), so these
two plain bit-vector types are all the data types the block has. -/

namespace Sys2Proof

/-- A 32-bit pattern: a data register (`XLEN`) or a command word (`CMDLEN`). R8, R21, R60. -/
abbrev Word := BitVec 32

/-- A 16-bit pattern: a half-word, a data-memory word (`WLEN`) or a word address (`ALEN`). R8, R19, R40. -/
abbrev Half := BitVec 16

/-- One byte of the list that holds data memory (the host's `Host.Cell`). -/
abbrev Byte := BitVec 8

/-- A data-register number, 0 to 15 (`NREG` = 16; R8, R21, R65). The bound is in the type: every value is legal (R61). -/
abbrev Reg := Fin 16

end Sys2Proof
end

