-- ==== Sys2Proof/Syntax.lean ====
section
/-! DEFINITION. The command set: one constructor for each of the 24 rows of spec/30_encoding.md R63 (spec/opcode_table.json),
with the operand fields the row uses, in the order rd, ra, rb, rc (R64), and the textual form of a command (R68). -/

namespace Sys2Proof

/-- The 24 commands of R63. An operand of type `Reg` is a register number; the one immediate is `LDI`'s 16-bit pattern (R65). -/
inductive Instr where
  /-- `LDI rd, imm16`: load a 16-bit pattern (R81). -/
  | ldi (rd : Reg) (imm : Half)
  /-- `HI rd, ra`: high half-word (R82). -/
  | hi (rd ra : Reg)
  /-- `LO rd, ra`: low half-word (R83). -/
  | lo (rd ra : Reg)
  /-- `PACK rd, ra, rb`: a 32-bit pattern from two halves (R84). -/
  | pack (rd ra rb : Reg)
  /-- `CVT.Q15.Q16N rd, ra`: naive Q0.15 to Q0.16 (R91). -/
  | cvtQ15Q16N (rd ra : Reg)
  /-- `CVT.Q15.Q16S rd, ra`: saturating Q0.15 to Q0.16 (R92). -/
  | cvtQ15Q16S (rd ra : Reg)
  /-- `CVT.Q16.Q1516 rd, ra`: Q0.16 to Q15.16 (R93). -/
  | cvtQ16Q1516 (rd ra : Reg)
  /-- `CVT.Q16.Q15 rd, ra`: Q0.16 to Q0.15 (R94). -/
  | cvtQ16Q15 (rd ra : Reg)
  /-- `CVT.Q1516.Q16 rd, ra`: Q15.16 to Q0.16, saturating (R95). -/
  | cvtQ1516Q16 (rd ra : Reg)
  /-- `ABS.Q15 rd, ra`: saturating absolute value (R101). -/
  | absQ15 (rd ra : Reg)
  /-- `MUL.Q15.Q15 rd, ra, rb` (R104). -/
  | mulQ15Q15 (rd ra rb : Reg)
  /-- `MUL.Q15.Q16 rd, ra, rb` (R105). -/
  | mulQ15Q16 (rd ra rb : Reg)
  /-- `MUL.Q15.Q1616 rd, ra, rb` (R106). -/
  | mulQ15Q1616 (rd ra rb : Reg)
  /-- `MUL.Q16.Q16 rd, ra, rb` (R107). -/
  | mulQ16Q16 (rd ra rb : Reg)
  /-- `MUL.Q32.Q16 rd, ra, rb` (R108). -/
  | mulQ32Q16 (rd ra rb : Reg)
  /-- `MUL.Q32.U16 rd, ra, rb` (R109). -/
  | mulQ32U16 (rd ra rb : Reg)
  /-- `MUL.Q1616.Q16 rd, ra, rb` (R110). -/
  | mulQ1616Q16 (rd ra rb : Reg)
  /-- `MUL.Q1616.U16 rd, ra, rb` (R111). -/
  | mulQ1616U16 (rd ra rb : Reg)
  /-- `MUL.Q1616.Q1616 rd, ra, rb` (R112). -/
  | mulQ1616Q1616 (rd ra rb : Reg)
  /-- `VMUL.Q15.Q16 rd, ra, rb, rc`: vector multiply over data memory; `rd` is read (R114). -/
  | vmulQ15Q16 (rd ra rb rc : Reg)
  /-- `DIV.Q16.Q16 rd, ra, rb` (R121). -/
  | divQ16Q16 (rd ra rb : Reg)
  /-- `INTERP.Q15 rd, ra, rb, rc`: two-point interpolation (R132). -/
  | interpQ15 (rd ra rb rc : Reg)
  /-- `LUT.Q15 rd, ra, rb`: table interpolation (R134). -/
  | lutQ15 (rd ra rb : Reg)
  /-- `SIN.Q15 rd, ra`: sine approximation (R143). -/
  | sinQ15 (rd ra : Reg)
deriving DecidableEq, Repr

/-- The registers a command READS, in field order (R64). `VMUL.Q15.Q16` reads its `rd` field as well; `LDI` reads none. -/
def Instr.sources : Instr → List Reg
  | .ldi _ _ => []
  | .hi _ ra => [ra]
  | .lo _ ra => [ra]
  | .pack _ ra rb => [ra, rb]
  | .cvtQ15Q16N _ ra => [ra]
  | .cvtQ15Q16S _ ra => [ra]
  | .cvtQ16Q1516 _ ra => [ra]
  | .cvtQ16Q15 _ ra => [ra]
  | .cvtQ1516Q16 _ ra => [ra]
  | .absQ15 _ ra => [ra]
  | .mulQ15Q15 _ ra rb => [ra, rb]
  | .mulQ15Q16 _ ra rb => [ra, rb]
  | .mulQ15Q1616 _ ra rb => [ra, rb]
  | .mulQ16Q16 _ ra rb => [ra, rb]
  | .mulQ32Q16 _ ra rb => [ra, rb]
  | .mulQ32U16 _ ra rb => [ra, rb]
  | .mulQ1616Q16 _ ra rb => [ra, rb]
  | .mulQ1616U16 _ ra rb => [ra, rb]
  | .mulQ1616Q1616 _ ra rb => [ra, rb]
  | .vmulQ15Q16 rd ra rb rc => [rd, ra, rb, rc]
  | .divQ16Q16 _ ra rb => [ra, rb]
  | .interpQ15 _ ra rb rc => [ra, rb, rc]
  | .lutQ15 _ ra rb => [ra, rb]
  | .sinQ15 _ ra => [ra]

/-- The register a command WRITES: its `rd`, and none for `VMUL.Q15.Q16` (R64). -/
def Instr.dest : Instr → Option Reg
  | .ldi rd _ => some rd
  | .hi rd _ => some rd
  | .lo rd _ => some rd
  | .pack rd _ _ => some rd
  | .cvtQ15Q16N rd _ => some rd
  | .cvtQ15Q16S rd _ => some rd
  | .cvtQ16Q1516 rd _ => some rd
  | .cvtQ16Q15 rd _ => some rd
  | .cvtQ1516Q16 rd _ => some rd
  | .absQ15 rd _ => some rd
  | .mulQ15Q15 rd _ _ => some rd
  | .mulQ15Q16 rd _ _ => some rd
  | .mulQ15Q1616 rd _ _ => some rd
  | .mulQ16Q16 rd _ _ => some rd
  | .mulQ32Q16 rd _ _ => some rd
  | .mulQ32U16 rd _ _ => some rd
  | .mulQ1616Q16 rd _ _ => some rd
  | .mulQ1616U16 rd _ _ => some rd
  | .mulQ1616Q1616 rd _ _ => some rd
  | .vmulQ15Q16 _ _ _ _ => none
  | .divQ16Q16 rd _ _ => some rd
  | .interpQ15 rd _ _ _ => some rd
  | .lutQ15 rd _ _ => some rd
  | .sinQ15 rd _ => some rd

/-- The mnemonic of a command, as R63 spells it. -/
def Instr.mnemonic : Instr → String
  | .ldi _ _ => "LDI"
  | .hi _ _ => "HI"
  | .lo _ _ => "LO"
  | .pack _ _ _ => "PACK"
  | .cvtQ15Q16N _ _ => "CVT.Q15.Q16N"
  | .cvtQ15Q16S _ _ => "CVT.Q15.Q16S"
  | .cvtQ16Q1516 _ _ => "CVT.Q16.Q1516"
  | .cvtQ16Q15 _ _ => "CVT.Q16.Q15"
  | .cvtQ1516Q16 _ _ => "CVT.Q1516.Q16"
  | .absQ15 _ _ => "ABS.Q15"
  | .mulQ15Q15 _ _ _ => "MUL.Q15.Q15"
  | .mulQ15Q16 _ _ _ => "MUL.Q15.Q16"
  | .mulQ15Q1616 _ _ _ => "MUL.Q15.Q1616"
  | .mulQ16Q16 _ _ _ => "MUL.Q16.Q16"
  | .mulQ32Q16 _ _ _ => "MUL.Q32.Q16"
  | .mulQ32U16 _ _ _ => "MUL.Q32.U16"
  | .mulQ1616Q16 _ _ _ => "MUL.Q1616.Q16"
  | .mulQ1616U16 _ _ _ => "MUL.Q1616.U16"
  | .mulQ1616Q1616 _ _ _ => "MUL.Q1616.Q1616"
  | .vmulQ15Q16 _ _ _ _ => "VMUL.Q15.Q16"
  | .divQ16Q16 _ _ _ => "DIV.Q16.Q16"
  | .interpQ15 _ _ _ _ => "INTERP.Q15"
  | .lutQ15 _ _ _ => "LUT.Q15"
  | .sinQ15 _ _ => "SIN.Q15"

/-- A register as text, `x0` to `x15` (R68). -/
def regText (r : Reg) : String := "x" ++ toString r.val

/-- The operands of a command as text, in the order rd, ra, rb, rc; the immediate in decimal (R68). -/
def Instr.operandTexts : Instr → List String
  | .ldi rd imm => [regText rd, toString imm.toNat]
  | i => i.dest.toList.map regText ++ i.sources.map regText

/-- One line of assembly: the mnemonic, a space, and the used operands separated by commas (R68). -/
def Instr.text (i : Instr) : String := i.mnemonic ++ " " ++ ", ".intercalate i.operandTexts

end Sys2Proof
end

