-- ==== Sys2Proof/Decode.lean ====
section
/-! DEFINITION. Decoding and encoding of command words (spec/30_encoding.md): the 24 rows of R63 as data, the total decoding
procedure of R62 with its illegal cases told apart by name (R66), and the encoder written from the two formats of R61. -/

namespace Sys2Proof

/-- The two formats of R61. -/
inductive Format where
  /-- Register operands: opcode, rd, ra, rb, rc, zero. -/
  | r
  /-- 16-bit immediate: opcode, rd, zero4, imm16. -/
  | i
deriving DecidableEq, Repr

/-- The operand fields of a word, read by position (R61); a format uses some of them. -/
structure Fields where
  rd : Reg
  ra : Reg
  rb : Reg
  rc : Reg
  imm : Half
deriving DecidableEq, Repr

/-- The 4-bit register field whose lowest bit is bit `lowBit`, as a register number 0 to 15 (R61, R65). -/
def regField (w : Word) (lowBit : Nat) : Reg := (w.extractLsb' lowBit 4).toFin

/-- The operand fields of a word: rd = w[23:20], ra = w[19:16], rb = w[15:12], rc = w[11:8], imm16 = w[15:0] (R61). -/
def fieldsOf (w : Word) : Fields where
  rd := regField w 20
  ra := regField w 16
  rb := regField w 12
  rc := regField w 8
  imm := w.extractLsb' 0 16

/-- The opcode byte w[31:24] (R61). -/
def opcodeOf (w : Word) : BitVec 8 := w.extractLsb' 24 8

/-- One row of R63: the opcode, the format, the word with all operand fields zero (`pattern`, the table's "match"), the mask
of the bits that are fixed, and the command the operand fields make. -/
structure OpcodeRow where
  opcode : BitVec 8
  format : Format
  pattern : Word
  mask : Word
  build : Fields → Instr

/-- The opcode map: the 24 rows of R63, in its order. -/
def opcodeRows : List OpcodeRow := [
  ⟨0x01, .i, 0x01000000, 0xFF0F0000, fun f => .ldi f.rd f.imm⟩,
  ⟨0x02, .r, 0x02000000, 0xFF00FFFF, fun f => .hi f.rd f.ra⟩,
  ⟨0x03, .r, 0x03000000, 0xFF00FFFF, fun f => .lo f.rd f.ra⟩,
  ⟨0x04, .r, 0x04000000, 0xFF000FFF, fun f => .pack f.rd f.ra f.rb⟩,
  ⟨0x10, .r, 0x10000000, 0xFF00FFFF, fun f => .cvtQ15Q16N f.rd f.ra⟩,
  ⟨0x11, .r, 0x11000000, 0xFF00FFFF, fun f => .cvtQ15Q16S f.rd f.ra⟩,
  ⟨0x12, .r, 0x12000000, 0xFF00FFFF, fun f => .cvtQ16Q1516 f.rd f.ra⟩,
  ⟨0x13, .r, 0x13000000, 0xFF00FFFF, fun f => .cvtQ16Q15 f.rd f.ra⟩,
  ⟨0x14, .r, 0x14000000, 0xFF00FFFF, fun f => .cvtQ1516Q16 f.rd f.ra⟩,
  ⟨0x20, .r, 0x20000000, 0xFF00FFFF, fun f => .absQ15 f.rd f.ra⟩,
  ⟨0x21, .r, 0x21000000, 0xFF000FFF, fun f => .mulQ15Q15 f.rd f.ra f.rb⟩,
  ⟨0x22, .r, 0x22000000, 0xFF000FFF, fun f => .mulQ15Q16 f.rd f.ra f.rb⟩,
  ⟨0x23, .r, 0x23000000, 0xFF000FFF, fun f => .mulQ15Q1616 f.rd f.ra f.rb⟩,
  ⟨0x24, .r, 0x24000000, 0xFF000FFF, fun f => .mulQ16Q16 f.rd f.ra f.rb⟩,
  ⟨0x25, .r, 0x25000000, 0xFF000FFF, fun f => .mulQ32Q16 f.rd f.ra f.rb⟩,
  ⟨0x26, .r, 0x26000000, 0xFF000FFF, fun f => .mulQ32U16 f.rd f.ra f.rb⟩,
  ⟨0x27, .r, 0x27000000, 0xFF000FFF, fun f => .mulQ1616Q16 f.rd f.ra f.rb⟩,
  ⟨0x28, .r, 0x28000000, 0xFF000FFF, fun f => .mulQ1616U16 f.rd f.ra f.rb⟩,
  ⟨0x29, .r, 0x29000000, 0xFF000FFF, fun f => .mulQ1616Q1616 f.rd f.ra f.rb⟩,
  ⟨0x2A, .r, 0x2A000000, 0xFF0000FF, fun f => .vmulQ15Q16 f.rd f.ra f.rb f.rc⟩,
  ⟨0x2B, .r, 0x2B000000, 0xFF000FFF, fun f => .divQ16Q16 f.rd f.ra f.rb⟩,
  ⟨0x30, .r, 0x30000000, 0xFF0000FF, fun f => .interpQ15 f.rd f.ra f.rb f.rc⟩,
  ⟨0x31, .r, 0x31000000, 0xFF000FFF, fun f => .lutQ15 f.rd f.ra f.rb⟩,
  ⟨0x40, .r, 0x40000000, 0xFF00FFFF, fun f => .sinQ15 f.rd f.ra⟩]

/-- Why a word is illegal: the cases (a) to (d) of R66. The block does the same for all of them (R161). -/
inductive IllegalReason where
  /-- (a) the opcode byte is none of the 24 of R63. -/
  | unknownOpcode
  /-- (b) a format-R opcode with w[7:0] not zero. -/
  | lowByteSet
  /-- (c) a format-R opcode with a register field the command does not use not zero. -/
  | unusedFieldSet
  /-- (d) `LDI` with w[19:16] not zero. -/
  | zero4Set
deriving DecidableEq, Repr

/-- What a command word spells: one command, or an illegal word with its reason. -/
inductive Decoded where
  | command (i : Instr)
  | illegal (why : IllegalReason)
deriving DecidableEq, Repr

/-- The case of R66 that makes a word of a known opcode illegal. When (b) and (c) both hold, (b) is named. -/
def illegalCase (row : OpcodeRow) (w : Word) : IllegalReason :=
  match row.format with
  | .i => .zero4Set
  | .r => if w.extractLsb' 0 8 ≠ 0 then .lowByteSet else .unusedFieldSet

/-- Decoding, total on every 32-bit word (R62): find the opcode's row; if there is none, or (w AND mask) differs from the
row's pattern, the word is illegal; otherwise it is the row's command with the operand fields of R61. -/
def decodeWord (w : Word) : Decoded :=
  match opcodeRows.find? (fun row => row.opcode == opcodeOf w) with
  | none => .illegal .unknownOpcode
  | some row => if w &&& row.mask = row.pattern then .command (row.build (fieldsOf w)) else .illegal (illegalCase row w)

/-- The instruction the decoder reads from an instruction whose bits are `w`, of which the table gives `nbits`; every row of
the table has 32 (R60). A command reaches the block by value (R24, R55), so no byte order enters. -/
def decodeTableWord (nbits w : Nat) : Option Instr :=
  match decodeWord (BitVec.ofNat 32 (w % 2 ^ nbits)) with
  | .command i => some i
  | .illegal _ => none

/-- A format-R word: opcode, rd, ra, rb, rc and the zero byte, most significant first (R61). -/
def encodeR (op : BitVec 8) (rd ra rb rc : Reg) : Word :=
  op ++ BitVec.ofFin (w := 4) rd ++ BitVec.ofFin (w := 4) ra ++ BitVec.ofFin (w := 4) rb ++ BitVec.ofFin (w := 4) rc ++ 0#8

/-- A format-I word: opcode, rd, the zero nibble and the immediate, most significant first (R61). -/
def encodeI (op : BitVec 8) (rd : Reg) (imm : Half) : Word :=
  op ++ BitVec.ofFin (w := 4) rd ++ 0#4 ++ imm

/-- The word of a command (R61, R63); a register field the command does not use is zero. -/
def encode : Instr → Word
  | .ldi rd imm => encodeI 0x01 rd imm
  | .hi rd ra => encodeR 0x02 rd ra 0 0
  | .lo rd ra => encodeR 0x03 rd ra 0 0
  | .pack rd ra rb => encodeR 0x04 rd ra rb 0
  | .cvtQ15Q16N rd ra => encodeR 0x10 rd ra 0 0
  | .cvtQ15Q16S rd ra => encodeR 0x11 rd ra 0 0
  | .cvtQ16Q1516 rd ra => encodeR 0x12 rd ra 0 0
  | .cvtQ16Q15 rd ra => encodeR 0x13 rd ra 0 0
  | .cvtQ1516Q16 rd ra => encodeR 0x14 rd ra 0 0
  | .absQ15 rd ra => encodeR 0x20 rd ra 0 0
  | .mulQ15Q15 rd ra rb => encodeR 0x21 rd ra rb 0
  | .mulQ15Q16 rd ra rb => encodeR 0x22 rd ra rb 0
  | .mulQ15Q1616 rd ra rb => encodeR 0x23 rd ra rb 0
  | .mulQ16Q16 rd ra rb => encodeR 0x24 rd ra rb 0
  | .mulQ32Q16 rd ra rb => encodeR 0x25 rd ra rb 0
  | .mulQ32U16 rd ra rb => encodeR 0x26 rd ra rb 0
  | .mulQ1616Q16 rd ra rb => encodeR 0x27 rd ra rb 0
  | .mulQ1616U16 rd ra rb => encodeR 0x28 rd ra rb 0
  | .mulQ1616Q1616 rd ra rb => encodeR 0x29 rd ra rb 0
  | .vmulQ15Q16 rd ra rb rc => encodeR 0x2A rd ra rb rc
  | .divQ16Q16 rd ra rb => encodeR 0x2B rd ra rb 0
  | .interpQ15 rd ra rb rc => encodeR 0x30 rd ra rb rc
  | .lutQ15 rd ra rb => encodeR 0x31 rd ra rb 0
  | .sinQ15 rd ra => encodeR 0x40 rd ra 0 0

end Sys2Proof
end

