-- ==== Sys2Proof/Config.lean ====
section
/-! DEFINITION. What the spec leaves to the implementation or leaves open: the constants without a body stand for values
that nothing constrains, so that a claim is true whatever they are (spec/00_scope.md R8, spec/93_implementation_defined.md).
The fixed parameters of R8 (`XLEN`, `NREG`, `CMDLEN`, `WLEN`, `ALEN`, `NSEG`, `LUTLEN`) are the widths and bounds of the types
in Word.lean and Machine/State.lean; `INTERP_TIE` is fixed to round half up (Machine/Operands.lean, `roundHalfUp`). -/

namespace Sys2Proof

/-- A free 32-bit value: what `DIV.Q16.Q16` with a zero denominator leaves in `rd`, "some 32-bit pattern", not the same on
two occasions (R122). The argument is the occasion: the step reads and advances `State.free`. Log entry 3. -/
opaque Config.freeWord : Nat → Word

/-- A free count: how many elements `VMUL.Q15.Q16` processes when its length is zero. "the number of elements it then
processes is unspecified" (R115). The argument is the occasion (`State.free`). Log entry 4. -/
opaque Config.freeCount : Nat → Nat

/-- A word of the sine ROM whose contents the spec leaves `OPEN` (parameter `SINTAB`; R8, R30, R141). Log entry 5. -/
opaque Config.sinRomWord : Fin 512 → Half

/-- The sine ROM's contents at reset: the open table, with the one entry the spec fixes exactly, `SINTAB(0x00).intercept` =
0x0000, which is ROM word 1 (R30, R144 (1)). Log entry 5. -/
def Config.sinRom : Vector Half 512 :=
  Vector.ofFn fun i => if i = 1 then 0 else Config.sinRomWord i

/-- What a byte of data memory that nothing has written reads as. DESIGN CHOICE (unsafe): the spec gives data memory no
reset contents (R35). Log entry 6. -/
def Config.unlistedByte : Byte := 0

/-- What a data register holds after reset. DESIGN CHOICE (unsafe): the spec leaves it unspecified (R23, R35). Log entry 2. -/
def Config.resetRegister : Word := 0

end Sys2Proof
end

