-- ==== Sys2Proof/Machine/State.lean ====
section
/-! DEFINITION. The state of the block and of its surroundings that the block's commands and the host can reach, as plain
data (spec/10_state.md, spec/20_memory.md), the reasons a step can stop, and the state after reset (R35, R180, R182). -/

namespace Sys2Proof.Machine

/-- Data memory as bytes by address, strictly rising, with no entry equal to `Config.unlistedByte`. Word a of R40 is held as
the byte 2a (bits 7:0) and the byte 2a+1 (bits 15:8); the block has no byte order and no command can see this one (R48;
log entry 7). -/
abbrev Memory := List Host.Cell

/-- A range of `count` word addresses from `first` on that the platform backs with memory: a piece of `MemValid` (R43). -/
structure WordRange where
  first : Nat
  count : Nat
deriving DecidableEq, Repr

/-- A `VMUL.Q15.Q16` in flight: the operands latched when it started and its progress (R32, R47). -/
structure VmulFlight where
  /-- `v_dst`, the destination word address. -/
  dst : Half
  /-- `v_src`, the source word address. -/
  src : Half
  /-- `v_s`, the scalar pattern. -/
  scalar : Half
  /-- `v_len`, the length operand as latched. -/
  len : Half
  /-- How many elements the command processes: `v_len`, or a free count when `v_len` is 0 (R115; log entry 4). -/
  count : Nat
  /-- `v_i`, the index of the next element. -/
  index : Nat
  /-- The element read and not yet written: the read and the write are two accesses (R47, R54). -/
  fetched : Option Half
deriving DecidableEq, Repr

/-- The model-level faults of R163 that do not stop the hardware, each a mark of the RUN that nothing clears, reset included:
"the run is marked as gone wrong and can never be a good final state" (R19, R162). Log entry 8. -/
structure FaultMarks where
  /-- Row 1: an illegal word was issued (R161). STATUS.ILL is the block's own bit, which reset clears. -/
  illegalWord : Bool
  /-- Row 5: a command or the host read a register nothing has written since reset (R23). -/
  unwrittenRead : Bool
  /-- Row 2: `DIV.Q16.Q16` with a zero denominator (R122). -/
  zeroDenominator : Bool
  /-- Row 3: `VMUL.Q15.Q16` with a zero length (R115). -/
  zeroLength : Bool
deriving DecidableEq, Repr

/-- The 18 locations of the host port (R33). -/
inductive Port where
  /-- Ports 0 to 15: the data registers x0 to x15 (R22). -/
  | reg (r : Reg)
  /-- Port 16: CMD (R25). -/
  | cmd
  /-- Port 17: STATUS (R26). -/
  | status
deriving DecidableEq, Repr

/-- What the host and the platform can do to the block and to the memory they share (R37, R180). -/
inductive HostAction where
  /-- Read a port (R33). -/
  | readPort (p : Port)
  /-- Write a port; a write to CMD issues a command (R25, R33). -/
  | writePort (p : Port) (w : Word)
  /-- Read a word of data memory (R40, R52). -/
  | readMem (a : Half)
  /-- Write a word of data memory (R40, R52). -/
  | writeMem (a v : Half)
  /-- Apply reset (R180). -/
  | reset
  /-- Do nothing for a moment, so that the block takes its next access: this is how an interleaving is written down. -/
  | wait
deriving DecidableEq, Repr

/-- What a host read returned. -/
inductive HostAnswer where
  | port (p : Port) (w : Word)
  | mem (a v : Half)
deriving DecidableEq, Repr

/-- The whole state: the block (R20), the data memory beside it (R40), the parameters a run fixes (R36), the model's
bookkeeping (R24, R182), and the host's side of the port. -/
structure State where
  /-- The data registers x0 to x15 (R21). -/
  regs : Vector Word 16
  /-- Whether x0 to x15 have been written since reset (R23, R182). -/
  written : Vector Bool 16
  /-- STATUS.ILL (R26, R28). STATUS.BUSY is 1 exactly while `vmul` holds a flight (R27, R20). -/
  ill : Bool
  /-- The `VMUL.Q15.Q16` in flight, if any (R32). -/
  vmul : Option VmulFlight
  /-- The sine ROM, 512 words, word 2u the slope and word 2u+1 the intercept of pair u (R30). -/
  sinRom : Vector Half 512
  /-- Data memory (R40). -/
  mem : Memory
  /-- `MemValid`: the word addresses the platform backs with memory (R43). -/
  backed : List WordRange
  /-- The number of commands retired, legal or illegal: bookkeeping that no rule reads (R24). -/
  cix : Nat
  /-- The model-level fault marks (R163). -/
  marks : FaultMarks
  /-- What the host does next, in its order (R34, R36). Empty: the host does nothing more. -/
  host : List HostAction
  /-- What the host's reads returned, the newest first. -/
  answers : List HostAnswer
  /-- The model's own: how many free values have been used. No statement rests on it. -/
  free : Nat
deriving DecidableEq, Repr

/-- Why the machine stops. Both are safe: the model stops where the hardware goes on in a way the spec does not give. -/
inductive Fault where
  /-- The block read or wrote a word that the platform does not back (R163 row 6); raised by `memRead` and `memWrite`. `marks`
  are the run's marks at that moment, the command's own rows 3 and 5 among them, which come before row 6 (R166). Safe: the
  spec gives the model no step there, "the block is stuck at that command" (R43, U7). -/
  | unbackedAccess (a : Half) (marks : FaultMarks)
  /-- The host read or wrote such a word on its own; raised by `performHost`. Safe: what the platform does with it is
  outside the block (R43, R44). -/
  | unbackedHostAccess (a : Half)
deriving DecidableEq, Repr

/-- Why the model declines an instruction. -/
inductive Refusal where
  /-- The instruction has no meaning in the model yet; raised by an arm of `exec`. Safe: nothing can be proved of its effect.
  No arm raises it: every command is modelled. -/
  | notModelled (mnemonic : String)
deriving DecidableEq, Repr

/-- The state after reset (R35, R180, R182): no command in flight, ILL = 0, no register written, the ROM holding `SINTAB`,
`cix` = 0. The registers' values, the memory's and which addresses are backed are open in the spec: log entries 2, 6, 9. -/
def State.reset : State where
  regs := Vector.replicate 16 Config.resetRegister
  written := Vector.replicate 16 false
  ill := false
  vmul := none
  sinRom := Config.sinRom
  mem := []
  backed := [⟨0, 65536⟩]
  cix := 0
  marks := ⟨false, false, false, false⟩
  host := []
  answers := []
  free := 0

end Sys2Proof.Machine
end

