-- ==== Sys2Proof/Machine/Ops.lean ====
section
/-! DEFINITION. The named operations over memory and registers that every meaning is written with, the free values a step
draws, the one hardware fault of the block, the illegal-command action (R161), and reset (R180). -/

namespace Sys2Proof.Machine

/-! ## Data memory as bytes -/

/-- The byte at an address; an address that is not listed reads as `Config.unlistedByte`. -/
def Memory.readByte : Memory → Nat → Byte
  | [], _ => Config.unlistedByte
  | (k, b) :: rest, a => if k = a then b else Memory.readByte rest a

/-- The memory with one byte replaced, in canonical form again. -/
def Memory.writeByte : Memory → Nat → Byte → Memory
  | [], a, b => if b = Config.unlistedByte then [] else [(a, b)]
  | (k, c) :: rest, a, b =>
    if k < a then (k, c) :: Memory.writeByte rest a b
    else if k = a then if b = Config.unlistedByte then rest else (a, b) :: rest
    else if b = Config.unlistedByte then (k, c) :: rest
    else (a, b) :: (k, c) :: rest

/-- Every listed address is at least `low` and below the end of memory (65536 words of two bytes), the addresses rise
strictly, and no entry equals what an unlisted address reads as. -/
def Memory.wfFrom : Nat → Memory → Bool
  | _, [] => true
  | low, (k, b) :: rest => decide (low ≤ k) && decide (k < 131072) && b != Config.unlistedByte && Memory.wfFrom (k + 1) rest

/-- The canonical form of memory. -/
def Memory.wf (m : Memory) : Bool := Memory.wfFrom 0 m

/-- Word a of data memory (R40): the bytes 2a and 2a+1, the second the more significant (log entry 7). -/
def Memory.readWord (m : Memory) (a : Half) : Half :=
  m.readByte (2 * a.toNat + 1) ++ m.readByte (2 * a.toNat)

/-- The memory with word a replaced and no other word changed (R42). -/
def Memory.writeWord (m : Memory) (a v : Half) : Memory :=
  (m.writeByte (2 * a.toNat) (v.extractLsb' 0 8)).writeByte (2 * a.toNat + 1) (v.extractLsb' 8 8)

/-! ## The memory port of the block (R42, R43) -/

/-- Whether a range holds a word address. -/
def WordRange.holds (r : WordRange) (a : Half) : Bool :=
  decide (r.first ≤ a.toNat) && decide (a.toNat < r.first + r.count)

/-- `MemValid(a)`: the platform backs word a with memory (R43). -/
def State.memValid (s : State) (a : Half) : Bool := s.backed.any (·.holds a)

/-- `MemRead(a, 16)` (R42); a word that is not backed has no step (R43). -/
def memRead (s : State) (a : Half) : Except Fault Half :=
  if s.memValid a then .ok (s.mem.readWord a) else .error (.unbackedAccess a s.marks)

/-- `MemWrite(a, 16, v)` (R42); a word that is not backed has no step (R43). -/
def memWrite (s : State) (a v : Half) : Except Fault State :=
  if s.memValid a then .ok { s with mem := s.mem.writeWord a v } else .error (.unbackedAccess a s.marks)

/-- `RomRead(i)`: word i of the sine ROM (R16, R30). -/
def romRead (s : State) (i : Fin 512) : Half := s.sinRom[i.val]

/-! ## Data registers (R21) -/

/-- `x[i]`: data register i. -/
def State.x (s : State) (r : Reg) : Word := s.regs[r.val]

/-- Whether register i has been written since reset (R23). -/
def State.isWritten (s : State) (r : Reg) : Bool := s.written[r.val]

/-- `x[i] <- v`: the whole register is written (R16, R23). -/
def State.setReg (s : State) (r : Reg) (v : Word) : State :=
  { s with regs := s.regs.set r.val v, written := s.written.set r.val true }

/-- Whether one of the given registers was never written since reset: row 5 of R163 applies to a command that reads them. -/
def State.anyUnwritten (s : State) (rs : List Reg) : Bool := rs.any fun r => !s.isWritten r

/-- Note that the given registers are read: a register never written since reset marks the run (R23, R163 row 5). The value
read is whatever the register holds. -/
def State.noteReads (s : State) (rs : List Reg) : State :=
  { s with marks := { s.marks with unwrittenRead := s.marks.unwrittenRead || s.anyUnwritten rs } }

/-- Note the zero denominator of a command that reads `srcs` (R163 row 2), unless row 5, which comes first, applies (R166). -/
def State.noteZeroDenominator (s : State) (srcs : List Reg) : State :=
  { s with marks := { s.marks with zeroDenominator := s.marks.zeroDenominator || !s.anyUnwritten srcs } }

/-- Note the zero length of a command that reads `srcs` (R163 row 3), unless row 5, which comes first, applies (R166). -/
def State.noteZeroLength (s : State) (srcs : List Reg) : State :=
  { s with marks := { s.marks with zeroLength := s.marks.zeroLength || !s.anyUnwritten srcs } }

/-- A command retires: the position in the command stream goes on by one (R24). -/
def State.retire (s : State) : State := { s with cix := s.cix + 1 }

/-- The common end of every command that writes a register (R80): its sources are noted as read, the result is written to
`rd`, the command retires, and nothing else changes. -/
def State.complete (s : State) (srcs : List Reg) (rd : Reg) (v : Word) : State :=
  ((s.noteReads srcs).setReg rd v).retire

/-! ## Free values -/

/-- The state after one free value has been used. -/
def State.useFree (s : State) : State := { s with free := s.free + 1 }

/-! ## The one hardware fault, and reset -/

/-- `raise IllegalCommand(w)`: STATUS.ILL becomes 1, the word retires at once, and nothing else of the block changes (R161);
the run is marked, which no reset undoes (R162). There is no trap entry, no saved state and no return from it (R165, R167). -/
def State.raiseIllegal (s : State) : State :=
  State.retire { s with ill := true, marks := { s.marks with illegalWord := true } }

/-- Reset, applied by the platform at any time (R180, R181): the block is as after reset; the ROM, data memory, the platform's
and host's side and the run's fault marks stay. It is the only way ILL returns to 0 (R167); a run that has gone wrong stays so,
since what came of it stands in memory and in the host's answers (R19, R162). Log entry 16. -/
def State.applyReset (s : State) : State :=
  { State.reset with
    sinRom := s.sinRom, mem := s.mem, backed := s.backed, marks := s.marks,
    host := s.host, answers := s.answers, free := s.free }

end Sys2Proof.Machine
end

