-- ==== Sys2Proof/Machine/Operands.lean ====
section
/-! DEFINITION. How a command reads its operands and forms its result: the readings of a pattern (spec/00_scope.md R14), cutting
and extending (R15), the operand conventions (R17), the multiply law (spec/42_arithmetic.md R102), the rounding of the
interpolations (spec/44_interpolation.md R131). Every intermediate value is an exact integer (R12, R116). -/

namespace Sys2Proof.Machine

/-- `u(v)`: the unsigned value of a pattern (R14). -/
def unsigned {n : Nat} (v : BitVec n) : Int := v.toNat

/-- `s(v)`: the two's complement value of a pattern (R14; G1 of spec/93_implementation_defined.md). -/
def signed {n : Nat} (v : BitVec n) : Int := v.toInt

/-- `wrap_N(z)`: the N-bit pattern whose unsigned value is z mod 2^N (R15). -/
def wrap (n : Nat) (z : Int) : BitVec n := BitVec.ofInt n z

/-- `floor_div(a, b)`, toward minus infinity (R15). -/
def floorDiv (a b : Int) : Int := Int.fdiv a b

/-- `round_k(p) = floor_div(p + 2^(k-1), 2^k)`: round half up (R131; `INTERP_TIE`, R8). -/
def roundHalfUp (k : Nat) (p : Int) : Int := floorDiv (p + 2 ^ (k - 1)) (2 ^ k)

/-- `zext_32(v)` (R15). -/
def zext32 (v : Half) : Word := v.setWidth 32

/-- high(p) = p[31:16] (R11). -/
def highHalf (p : Word) : Half := p.extractLsb' 16 16

/-- low(p) = p[15:0] (R11). -/
def lowHalf (p : Word) : Half := p.extractLsb' 0 16

/-- `x[i].lo`: an operand read as Q0.15, Q0.16, U16 or a word address; the upper half is ignored (R17, R45). -/
def State.xlo (s : State) (r : Reg) : Half := lowHalf (s.x r)

/-- A command whose result has 16 bits: it is written zero-extended, whatever its sign (R17). -/
def State.complete16 (s : State) (srcs : List Reg) (rd : Reg) (r : Half) : State := s.complete srcs rd (zext32 r)

/-- The law of the multiplies (R102): the exact product of the two readings, its low k bits dropped with floor, the low n bits
of what is left kept. -/
def mulLaw (n k : Nat) (a b : Int) : BitVec n := wrap n (floorDiv (a * b) (2 ^ k))

/-- The function `mulq15q16(a, s)` of R105, also used by `VMUL.Q15.Q16` (R47, R114). -/
def mulq15q16 (a s : Half) : Half := mulLaw 16 16 (signed a) (unsigned s)

/-- The upper byte of a 16-bit input: the table index (R134) or sine segment (R142). -/
def upperByte (v : Half) : BitVec 8 := v.extractLsb' 8 8

/-- The lower byte of a 16-bit input: the weight (R134) or the position in the segment (R142), in 256ths. -/
def lowerByte (v : Half) : BitVec 8 := v.extractLsb' 0 8

/-- Word `i` of a sequence at word address `b`, modulo 2^16 (R41, R45). -/
def seqAddr (b : Half) (i : Nat) : Half := b + BitVec.ofNat 16 i

end Sys2Proof.Machine
end

