-- ==== Sys2Proof/Machine/Arithmetic.lean ====
section
/-! DEFINITION. The saturating absolute value and the nine multiplies (spec/42_arithmetic.md R101, R104 to R112). Each multiply
is the law of R102 (`mulLaw`) at its widths and readings: it truncates, wraps and is never overflow-checked. -/

namespace Sys2Proof.Machine

/-- The saturating magnitude of a Q0.15 pattern (R101). -/
def absQ15 (a : Half) : Half :=
  if a = 0x8000 then 0x7FFF else if a.msb then wrap 16 (-signed a) else a

/-- R101. -/
def execAbsQ15 (rd ra : Reg) (s : State) : Host.Outcome State Fault Refusal :=
  .next (s.complete16 [ra] rd (absQ15 (s.xlo ra)))

/-- (Q0.15, Q0.15) → Q0.15: bits 30..15 of the product (R104). -/
def execMulQ15Q15 (rd ra rb : Reg) (s : State) : Host.Outcome State Fault Refusal :=
  .next (s.complete16 [ra, rb] rd (mulLaw 16 15 (signed (s.xlo ra)) (signed (s.xlo rb))))

/-- (Q0.15, Q0.16) → Q0.15: signed times unsigned, bits 31..16 (R105). -/
def execMulQ15Q16 (rd ra rb : Reg) (s : State) : Host.Outcome State Fault Refusal :=
  .next (s.complete16 [ra, rb] rd (mulq15q16 (s.xlo ra) (s.xlo rb)))

/-- (Q0.15, Q16.16) → Q0.15: the second operand is the whole register (R106). -/
def execMulQ15Q1616 (rd ra rb : Reg) (s : State) : Host.Outcome State Fault Refusal :=
  .next (s.complete16 [ra, rb] rd (mulLaw 16 16 (signed (s.xlo ra)) (unsigned (s.x rb))))

/-- (Q0.16, Q0.16) → Q0.16 (R107). -/
def execMulQ16Q16 (rd ra rb : Reg) (s : State) : Host.Outcome State Fault Refusal :=
  .next (s.complete16 [ra, rb] rd (mulLaw 16 16 (unsigned (s.xlo ra)) (unsigned (s.xlo rb))))

/-- (Q0.32, Q0.16) → Q0.32 (R108). -/
def execMulQ32Q16 (rd ra rb : Reg) (s : State) : Host.Outcome State Fault Refusal :=
  .next (s.complete [ra, rb] rd (mulLaw 32 16 (unsigned (s.x ra)) (unsigned (s.xlo rb))))

/-- (Q0.32, U16) → Q0.32: no product bit is dropped at the bottom (R109). -/
def execMulQ32U16 (rd ra rb : Reg) (s : State) : Host.Outcome State Fault Refusal :=
  .next (s.complete [ra, rb] rd (mulLaw 32 0 (unsigned (s.x ra)) (unsigned (s.xlo rb))))

/-- (Q16.16, Q0.16) → Q16.16 (R110). -/
def execMulQ1616Q16 (rd ra rb : Reg) (s : State) : Host.Outcome State Fault Refusal :=
  .next (s.complete [ra, rb] rd (mulLaw 32 16 (unsigned (s.x ra)) (unsigned (s.xlo rb))))

/-- (Q16.16, U16) → Q16.16: no product bit is dropped at the bottom (R111). -/
def execMulQ1616U16 (rd ra rb : Reg) (s : State) : Host.Outcome State Fault Refusal :=
  .next (s.complete [ra, rb] rd (mulLaw 32 0 (unsigned (s.x ra)) (unsigned (s.xlo rb))))

/-- (Q16.16, Q16.16) → Q16.16: bits 47..16 of the 64-bit product (R112). -/
def execMulQ1616Q1616 (rd ra rb : Reg) (s : State) : Host.Outcome State Fault Refusal :=
  .next (s.complete [ra, rb] rd (mulLaw 32 16 (unsigned (s.x ra)) (unsigned (s.x rb))))

end Sys2Proof.Machine
end

