-- ==== Sys2Proof/Machine/Conversion.lean ====
section
/-! DEFINITION. The conversion commands (spec/41_conversion.md R91 to R95). No saturation is recorded anywhere (R90). -/

namespace Sys2Proof.Machine

/-- a[14:0] : 0b0, the shift left by one that drops the old bit 15 (R91, R92). -/
def shiftLeftOne (a : Half) : Half := a.extractLsb' 0 15 ++ 0#1

/-- 0b0 : a[15:1], the logical shift right by one (R94, decision D26). -/
def shiftRightOne (a : Half) : Half := 0#1 ++ a.extractLsb' 1 15

/-- Saturating Q0.15 to Q0.16: a negative input gives 0 (R92). -/
def clampQ15 (a : Half) : Half := if a.msb then 0 else shiftLeftOne a

/-- Saturating Q15.16 to Q0.16: the three cases of R95. -/
def clampQ1516 (p : Word) : Half :=
  if highHalf p = 0 then lowHalf p else if p.msb then 0 else 0xFFFF

/-- The literal shift for every pattern, a negative input included (R91, decision D25). -/
def execCvtQ15Q16N (rd ra : Reg) (s : State) : Host.Outcome State Fault Refusal :=
  .next (s.complete16 [ra] rd (shiftLeftOne (s.xlo ra)))

/-- R92. -/
def execCvtQ15Q16S (rd ra : Reg) (s : State) : Host.Outcome State Fault Refusal :=
  .next (s.complete16 [ra] rd (clampQ15 (s.xlo ra)))

/-- `x[rd] <- 0x0000 : a`, a 32-bit result (R93). -/
def execCvtQ16Q1516 (rd ra : Reg) (s : State) : Host.Outcome State Fault Refusal :=
  .next (s.complete [ra] rd (0#16 ++ s.xlo ra))

/-- R94. -/
def execCvtQ16Q15 (rd ra : Reg) (s : State) : Host.Outcome State Fault Refusal :=
  .next (s.complete16 [ra] rd (shiftRightOne (s.xlo ra)))

/-- R95; the operand is the whole 32-bit pattern. -/
def execCvtQ1516Q16 (rd ra : Reg) (s : State) : Host.Outcome State Fault Refusal :=
  .next (s.complete16 [ra] rd (clampQ1516 (s.x ra)))

end Sys2Proof.Machine
end

