-- ==== Sys2Proof/Machine/Division.lean ====
section
/-! DEFINITION. `DIV.Q16.Q16` (spec/43_division.md R121, R122). -/

namespace Sys2Proof.Machine

/-- The Q16.16 quotient of two Q0.16 patterns: floor of n·2^16 over d, for d ≠ 0 (R121). -/
def quotient (n d : Half) : Word := wrap 32 (floorDiv (unsigned n * 2 ^ 16) (unsigned d))

/-- R121; with a zero denominator the block raises nothing and writes some pattern to `rd`, a free value here, and changes
nothing else; the run is marked, with row 2 or, a source never written, row 5 (R122, R166, U2; log entry 3). -/
def execDivQ16Q16 (rd ra rb : Reg) (s : State) : Host.Outcome State Fault Refusal :=
  if s.xlo rb = 0 then
    .next ((s.useFree.noteZeroDenominator [ra, rb]).complete [ra, rb] rd (Config.freeWord s.free))
  else
    .next (s.complete [ra, rb] rd (quotient (s.xlo ra) (s.xlo rb)))

end Sys2Proof.Machine
end

