-- ==== Sys2Proof/Machine/Interpolation.lean ====
section
/-! DEFINITION. The interpolation commands (spec/44_interpolation.md R132, R134): they round the one product to nearest, ties
up, and take the difference of the samples exactly (R131, R137). -/

namespace Sys2Proof.Machine

/-- `y1 + (y2 - y1) × weight/2^k`, the product rounded once to the Q0.15 unit (R132 with k = 16, R134 with k = 8). -/
def interpolate (k : Nat) (y1 y2 : Half) (weight : Int) : Half :=
  wrap 16 (signed y1 + roundHalfUp k ((signed y2 - signed y1) * weight))

/-- R132: samples in ra and rb, the Q0.16 weight in rc. -/
def execInterpQ15 (rd ra rb rc : Reg) (s : State) : Host.Outcome State Fault Refusal :=
  .next (s.complete16 [ra, rb, rc] rd (interpolate 16 (s.xlo ra) (s.xlo rb) (unsigned (s.xlo rc))))

/-- R134: the table's word address in ra, the Q0.16 input in rb; exactly the two words table[idx] and table[idx+1] are read
(R51), and a word that is not backed has no step (R43). The sources are noted as read before the table is (R166), so that the
fault at an unbacked word carries the mark of row 5 when a source was never written. -/
def execLutQ15 (rd ra rb : Reg) (s : State) : Host.Outcome State Fault Refusal :=
  let idx := (upperByte (s.xlo rb)).toNat
  let noted := s.noteReads [ra, rb]
  match memRead noted (seqAddr (s.xlo ra) idx) with
  | .error e => .fault e
  | .ok y1 =>
    match memRead noted (seqAddr (s.xlo ra) (idx + 1)) with
    | .error e => .fault e
    | .ok y2 => .next (s.complete16 [ra, rb] rd (interpolate 8 y1 y2 (unsigned (lowerByte (s.xlo rb)))))

end Sys2Proof.Machine
end

