-- ==== Sys2Proof/Machine/Sine.lean ====
section
/-! DEFINITION. `SIN.Q15` (spec/45_sine.md R142, R143): one (slope, intercept) pair of the sine ROM, evaluated with the
truncation of the multiplies, not the rounding of the interpolations (R145, conflict C1), and a wrapping sum (R146). -/

namespace Sys2Proof.Machine

/-- `SINTAB(u).slope`: ROM word 2u (R30, R141). -/
def sinSlope (s : State) (u : BitVec 8) : Half :=
  romRead s ⟨2 * u.toNat, by have := u.isLt; omega⟩

/-- `SINTAB(u).intercept`: ROM word 2u+1 (R30, R141). -/
def sinIntercept (s : State) (u : BitVec 8) : Half :=
  romRead s ⟨2 * u.toNat + 1, by have := u.isLt; omega⟩

/-- intercept + floor(slope × f / 256), the sum cut to 16 bits (R143, R146). -/
def evalSegment (slope intercept : Half) (f : BitVec 8) : Half :=
  wrap 16 (signed intercept + floorDiv (signed slope * unsigned f) 256)

/-- R143: segment by the upper byte read as unsigned, position by the lower byte (R142). -/
def execSinQ15 (rd ra : Reg) (s : State) : Host.Outcome State Fault Refusal :=
  let a := s.xlo ra
  .next (s.complete16 [ra] rd (evalSegment (sinSlope s (upperByte a)) (sinIntercept s (upperByte a)) (lowerByte a)))

end Sys2Proof.Machine
end

