-- ==== Sys2Proof/Machine/TypeModel.lean ====
section
/-! DEFINITION. The type-model commands LDI, HI, LO, PACK (spec/40_type_model.md R81 to R84). -/

namespace Sys2Proof.Machine

/-- `x[rd] <- zext_32(imm16)`; no register is read (R81). -/
def execLdi (rd : Reg) (imm : Half) (s : State) : Host.Outcome State Fault Refusal :=
  .next (s.complete16 [] rd imm)

/-- `x[rd] <- zext_32(x[ra][31:16])` (R82). -/
def execHi (rd ra : Reg) (s : State) : Host.Outcome State Fault Refusal :=
  .next (s.complete16 [ra] rd (highHalf (s.x ra)))

/-- `x[rd] <- zext_32(x[ra][15:0])` (R83). -/
def execLo (rd ra : Reg) (s : State) : Host.Outcome State Fault Refusal :=
  .next (s.complete16 [ra] rd (lowHalf (s.x ra)))

/-- `x[rd] <- x[ra][15:0] : x[rb][15:0]` (R84). -/
def execPack (rd ra rb : Reg) (s : State) : Host.Outcome State Fault Refusal :=
  .next (s.complete [ra, rb] rd (s.xlo ra ++ s.xlo rb))

end Sys2Proof.Machine
end

