-- ==== Sys2Proof/Machine/Vector.lean ====
section
/-! DEFINITION. `VMUL.Q15.Q16` (spec/42_arithmetic.md R114, R115; spec/20_memory.md R47): the command starts a flight by
latching its operands, and the block then takes one memory access a step, since the accesses are separately visible to the
host (R16, R47, R54), until the last element is written and the command retires (R37, R190). -/

namespace Sys2Proof.Machine

/-- Start: latch `v_dst` from rd, `v_src` from ra, `v_s` from rb, `v_len` from rc (the low halves); BUSY becomes 1 (R32, R114).
With `v_len` = 0 the block does not check and processes an unspecified number of elements: the count is free and the run is
marked before any memory access, with row 3 or, a source never written, row 5 (R115, R166, U3; log entry 4). -/
def execVmulQ15Q16 (rd ra rb rc : Reg) (s : State) : Host.Outcome State Fault Refusal :=
  let flight (count : Nat) : VmulFlight :=
    { dst := s.xlo rd, src := s.xlo ra, scalar := s.xlo rb, len := s.xlo rc, count := count, index := 0, fetched := none }
  let noted := s.noteReads [rd, ra, rb, rc]
  if s.xlo rc = 0 then
    .next { noted.useFree.noteZeroLength [rd, ra, rb, rc] with
      vmul := some (flight (Config.freeCount s.free)) }
  else
    .next { noted with vmul := some (flight (s.xlo rc).toNat) }

/-- The next access of the flight `v` (R47): the write of the element just read, else the read of the next element, else,
all elements written, the end of the command: BUSY becomes 0 and the command retires (R27, R24). -/
def vmulAccess (v : VmulFlight) (s : State) : Host.Outcome State Fault Refusal :=
  match v.fetched with
  | some t =>
    match memWrite s (seqAddr v.dst v.index) (mulq15q16 t v.scalar) with
    | .ok s' => .next { s' with vmul := some { v with index := v.index + 1, fetched := none } }
    | .error e => .fault e
  | none =>
    if v.index < v.count then
      match memRead s (seqAddr v.src v.index) with
      | .ok t => .next { s with vmul := some { v with fetched := some t } }
      | .error e => .fault e
    else
      .next (State.retire { s with vmul := none })

/-- The block's own step between host actions: one access of a flight; an idle block waits, and all state survives (R172). -/
def blockStep (s : State) : Host.Outcome State Fault Refusal :=
  match s.vmul with
  | some v => vmulAccess v s
  | none => .next s

end Sys2Proof.Machine
end

