-- ==== Sys2Proof/Machine/Dispatch.lean ====
section
/-! DEFINITION. The meaning of every command: one arm per constructor of Instr, in the order of spec/opcode_table.json. -/

namespace Sys2Proof.Machine

def exec (i : Instr) (s : State) : Host.Outcome State Fault Refusal :=
  match i with
  | .ldi rd imm => Sys2Proof.Machine.execLdi rd imm s
  | .hi rd ra => Sys2Proof.Machine.execHi rd ra s
  | .lo rd ra => Sys2Proof.Machine.execLo rd ra s
  | .pack rd ra rb => Sys2Proof.Machine.execPack rd ra rb s
  | .cvtQ15Q16N rd ra => Sys2Proof.Machine.execCvtQ15Q16N rd ra s
  | .cvtQ15Q16S rd ra => Sys2Proof.Machine.execCvtQ15Q16S rd ra s
  | .cvtQ16Q1516 rd ra => Sys2Proof.Machine.execCvtQ16Q1516 rd ra s
  | .cvtQ16Q15 rd ra => Sys2Proof.Machine.execCvtQ16Q15 rd ra s
  | .cvtQ1516Q16 rd ra => Sys2Proof.Machine.execCvtQ1516Q16 rd ra s
  | .absQ15 rd ra => Sys2Proof.Machine.execAbsQ15 rd ra s
  | .mulQ15Q15 rd ra rb => Sys2Proof.Machine.execMulQ15Q15 rd ra rb s
  | .mulQ15Q16 rd ra rb => Sys2Proof.Machine.execMulQ15Q16 rd ra rb s
  | .mulQ15Q1616 rd ra rb => Sys2Proof.Machine.execMulQ15Q1616 rd ra rb s
  | .mulQ16Q16 rd ra rb => Sys2Proof.Machine.execMulQ16Q16 rd ra rb s
  | .mulQ32Q16 rd ra rb => Sys2Proof.Machine.execMulQ32Q16 rd ra rb s
  | .mulQ32U16 rd ra rb => Sys2Proof.Machine.execMulQ32U16 rd ra rb s
  | .mulQ1616Q16 rd ra rb => Sys2Proof.Machine.execMulQ1616Q16 rd ra rb s
  | .mulQ1616U16 rd ra rb => Sys2Proof.Machine.execMulQ1616U16 rd ra rb s
  | .mulQ1616Q1616 rd ra rb => Sys2Proof.Machine.execMulQ1616Q1616 rd ra rb s
  | .vmulQ15Q16 rd ra rb rc => Sys2Proof.Machine.execVmulQ15Q16 rd ra rb rc s
  | .divQ16Q16 rd ra rb => Sys2Proof.Machine.execDivQ16Q16 rd ra rb s
  | .interpQ15 rd ra rb rc => Sys2Proof.Machine.execInterpQ15 rd ra rb rc s
  | .lutQ15 rd ra rb => Sys2Proof.Machine.execLutQ15 rd ra rb s
  | .sinQ15 rd ra => Sys2Proof.Machine.execSinQ15 rd ra s

end Sys2Proof.Machine
end

