-- ==== Sys2Proof/Machine/Flags.lean ====
section
/-! DEFINITION. STATUS, the block's only status register (spec/10_state.md R26 to R28). There is no flag and no condition code:
no command sets or reads a carry, zero, negative, overflow or saturation flag (R29). -/

namespace Sys2Proof.Machine

/-- STATUS.BUSY: 1 while a `VMUL.Q15.Q16` is in flight; the other commands are one action and have no busy phase (R27). -/
def State.busy (s : State) : Bool := s.vmul.isSome

/-- STATUS as a host read returns it: bit 0 BUSY, bit 1 ILL, bits 31 to 2 zero (R26). -/
def State.statusWord (s : State) : Word :=
  (BitVec.ofBool s.ill ++ BitVec.ofBool s.busy).setWidth 32

end Sys2Proof.Machine
end

