-- ==== Sys2Proof/Machine/HostPort.lean ====
section
/-! DEFINITION. The host's side: issuing a command word (spec/10_state.md R25), the host port (R33), the stall rule (R34), the
host's own accesses to data memory (spec/20_memory.md R52) and reset (spec/70_reset_and_hazards.md R180). -/

namespace Sys2Proof.Machine

/-- Port number n of R33; numbers above 17 do not exist. -/
def Port.ofNumber (n : Nat) : Option Port :=
  if h : n < 16 then some (.reg ⟨n, h⟩) else if n = 16 then some .cmd else if n = 17 then some .status else none

/-- The block executes word w as one command: a legal word has its command's meaning, any other raises IllegalCommand (R25,
R62, R161). -/
def issue (w : Word) (s : State) : Host.Outcome State Fault Refusal :=
  match decodeWord w with
  | .command i => exec i s
  | .illegal _ => .next s.raiseIllegal

/-- What a host read of a port returns: the register; 0 for CMD; STATUS (R22, R25, R26, R33). -/
def portValue (p : Port) (s : State) : Word :=
  match p with
  | .reg r => s.x r
  | .cmd => 0
  | .status => s.statusWord

/-- A host read of a port: it returns the value and changes no register and no status bit; reading a never-written register
marks the run (R23, R33, R163 row 5). -/
def readPort (p : Port) (s : State) : State :=
  let noted := match p with
    | .reg r => s.noteReads [r]
    | .cmd => s
    | .status => s
  { noted with answers := .port p (portValue p s) :: s.answers }

/-- A host write of a port: a register is replaced whole, CMD issues the word, STATUS ignores it (R22, R25, R26, R33). -/
def writePort (p : Port) (w : Word) (s : State) : Host.Outcome State Fault Refusal :=
  match p with
  | .reg r => .next (s.setReg r w)
  | .cmd => issue w s
  | .status => .next s

/-- Whether a host action must wait while BUSY = 1: an access to ports 0 to 15, or a write to port 16 (R34). -/
def HostAction.stalls : HostAction → Bool
  | .readPort (.reg _) => true
  | .readPort .cmd => false
  | .readPort .status => false
  | .writePort (.reg _) _ => true
  | .writePort .cmd _ => true
  | .writePort .status _ => false
  | .readMem _ => false
  | .writeMem _ _ => false
  | .reset => false
  | .wait => false

/-- A host action taking effect, on the state from which it has been taken off the host's list. -/
def performHost (a : HostAction) (s : State) : Host.Outcome State Fault Refusal :=
  match a with
  | .readPort p => .next (readPort p s)
  | .writePort p w => writePort p w s
  | .readMem a =>
    if s.memValid a then .next { s with answers := .mem a (s.mem.readWord a) :: s.answers }
    else .fault (.unbackedHostAccess a)
  | .writeMem a v =>
    if s.memValid a then .next { s with mem := s.mem.writeWord a v } else .fault (.unbackedHostAccess a)
  | .reset => .next s.applyReset
  | .wait => blockStep s

/-- The next event: a host action that need not stall takes effect, in the host's order; while it stalls, or when the host
does nothing, the block takes its own step (R34, R37, R52, R190). -/
def nextEvent (s : State) : Host.Outcome State Fault Refusal :=
  match s.host with
  | [] => blockStep s
  | a :: rest => if s.busy && a.stalls then blockStep s else performHost a { s with host := rest }

end Sys2Proof.Machine
end

