-- ==== Sys2Proof/Machine/Step.lean ====
section
/-! DEFINITION. One step of the machine, and how an instruction is placed where the next step takes it. -/

namespace Sys2Proof.Machine

/-- One step: one event in the total order of the host's accesses and the block's (R34, R37, R52). -/
def step (s : State) : Host.Outcome State Fault Refusal := nextEvent s

/-- The state in which the very next event is the host's write of the command word `w` to CMD: a command reaches the block by
value, as a host write (R24, R25). The table's words have 32 bits (R60). The block is idle, since the write would stall
while a `VMUL.Q15.Q16` is in flight (R34); after reset it is idle already. Log entry 10. -/
def State.withFetchWord (s : State) (nbits w : Nat) : State :=
  { s with vmul := none, host := .writePort .cmd (BitVec.ofNat 32 (w % 2 ^ nbits)) :: s.host }

end Sys2Proof.Machine
end

