-- ==== Sys2Proof/Safety.lean ====
section
/-! DEFINITION. What counts as a good run, in the terms claims use: the faulted and the final run (spec/10_state.md R28,
spec/60_exceptions.md R162, spec/70_reset_and_hazards.md R192), what the host must do before each command (R183), the one hazard
(R186), and the invariant of the model's data. -/

namespace Sys2Proof.Machine

/-- A model-level fault has happened in the run (R163 rows 1, 2, 3, 5). -/
def FaultMarks.any (m : FaultMarks) : Bool := m.illegalWord || m.unwrittenRead || m.zeroDenominator || m.zeroLength

/-- The run is faulted, and no reset mends it: an illegal word was issued, a never-written register read or a precondition
violated at any time in the run (R19, R28, R162, R163). -/
def State.faulted (s : State) : Bool :=
  s.ill || s.marks.any

/-- Whether a host action issues a command word (R25). -/
def HostAction.issuesCommand : HostAction → Bool
  | .writePort .cmd _ => true
  | .writePort (.reg _) _ => false
  | .writePort .status _ => false
  | .readPort _ => false
  | .readMem _ => false
  | .writeMem _ _ => false
  | .reset => false
  | .wait => false

/-- The run is final: the host has issued every command word of its stream, BUSY = 0, no fault has occurred (R192). Other host
actions may still be to come; R192 does not ask about them. -/
def State.final (s : State) : Bool := !s.host.any (·.issuesCommand) && !s.busy && !s.faulted

/-- All words of the sequence of `n` elements at `b` are backed (R41, R183). -/
def State.backsSeq (s : State) (b : Half) (n : Nat) : Prop := ∀ i < n, s.memValid (seqAddr b i) = true

/-- Two sequences of `n` elements are the same one or share no word (R57, R183). -/
def sameOrDisjoint (dst src : Half) (n : Nat) : Prop :=
  dst = src ∨ ∀ i < n, ∀ j < n, seqAddr dst i ≠ seqAddr src j

/-- What the host must see to before it issues a command: every register the command reads is written, and the source's
preconditions of R183 (2), (3), (4). -/
def Preconditions (i : Instr) (s : State) : Prop :=
  (∀ r ∈ i.sources, s.isWritten r = true) ∧
  match i with
  | .divQ16Q16 _ _ rb => s.xlo rb ≠ 0
  | .lutQ15 _ ra _ => s.backsSeq (s.xlo ra) 257
  | .vmulQ15Q16 rd ra _ rc =>
    s.xlo rc ≠ 0 ∧ s.backsSeq (s.xlo ra) (s.xlo rc).toNat ∧ s.backsSeq (s.xlo rd) (s.xlo rc).toNat ∧
      sameOrDisjoint (s.xlo rd) (s.xlo ra) (s.xlo rc).toNat
  | _ => True

/-- A host action that breaks R186 while the flight `v` runs: a write of a source word, or a read or write of a destination
word. -/
def RacesWith (v : VmulFlight) : HostAction → Prop
  | .writeMem a _ => ∃ i < v.count, a = seqAddr v.src i ∨ a = seqAddr v.dst i
  | .readMem a => ∃ i < v.count, a = seqAddr v.dst i
  | .readPort _ => False
  | .writePort _ _ => False
  | .reset => False
  | .wait => False

/-- A flight as the block makes and advances it: the index is at most the count, an element read is one still to be written,
and the count is the latched length unless that is zero (R32, R115). -/
def VmulFlight.Consistent (v : VmulFlight) : Prop :=
  v.index ≤ v.count ∧ (v.fetched.isSome = true → v.index < v.count) ∧ (v.len ≠ 0 → v.count = v.len.toNat)

/-- The invariant of the machine: data memory is in canonical form, a flight is consistent, the sine ROM holds the one entry
the spec fixes, `SINTAB(0x00).intercept` = 0 (R144), and ILL is 1 only in a run marked as gone wrong by an illegal word (R162). -/
def State.Inv (s : State) : Prop :=
  s.mem.wf = true ∧ (∀ v, s.vmul = some v → v.Consistent) ∧ romRead s 1 = 0 ∧
    (s.ill = true → s.marks.illegalWord = true)

end Sys2Proof.Machine
end

