-- ==== Sys2Proof/WellFormed.lean ====
section
/-! DEFINITION. Well-formedness. A term of `Instr` is well-formed by its type: a register number is below 16 and an immediate
has 16 bits (spec/30_encoding.md R61, R65). What can be ill-formed is a line of assembly as written (R68) and the one
pseudo-command `LI32` (R69): this file checks those, one named check each, and assembles the lines that pass. An ill-formed
command WORD is the decoder's matter (Decode.lean, R66). -/

namespace Sys2Proof

/-- A line of assembly with its operands as bare numbers, not yet checked (R68, R69). -/
inductive AsmLine where
  /-- A mnemonic, its register operands in the order rd, ra, rb, rc, and its immediate if one is written. -/
  | command (mnemonic : String) (regs : List Nat) (imm : Option Nat)
  /-- The pseudo-command `LI32 rd, rt, imm32`. -/
  | li32 (rd rt imm32 : Nat)
deriving DecidableEq, Repr

/-- The command a mnemonic makes of its operands; none if the mnemonic is unknown or the operands are not the ones it uses
(R63, R64, R68). -/
def commandOf : String → List Reg → Option Half → Option Instr
  | "LDI", [rd], some imm => some (.ldi rd imm)
  | "HI", [rd, ra], none => some (.hi rd ra)
  | "LO", [rd, ra], none => some (.lo rd ra)
  | "PACK", [rd, ra, rb], none => some (.pack rd ra rb)
  | "CVT.Q15.Q16N", [rd, ra], none => some (.cvtQ15Q16N rd ra)
  | "CVT.Q15.Q16S", [rd, ra], none => some (.cvtQ15Q16S rd ra)
  | "CVT.Q16.Q1516", [rd, ra], none => some (.cvtQ16Q1516 rd ra)
  | "CVT.Q16.Q15", [rd, ra], none => some (.cvtQ16Q15 rd ra)
  | "CVT.Q1516.Q16", [rd, ra], none => some (.cvtQ1516Q16 rd ra)
  | "ABS.Q15", [rd, ra], none => some (.absQ15 rd ra)
  | "MUL.Q15.Q15", [rd, ra, rb], none => some (.mulQ15Q15 rd ra rb)
  | "MUL.Q15.Q16", [rd, ra, rb], none => some (.mulQ15Q16 rd ra rb)
  | "MUL.Q15.Q1616", [rd, ra, rb], none => some (.mulQ15Q1616 rd ra rb)
  | "MUL.Q16.Q16", [rd, ra, rb], none => some (.mulQ16Q16 rd ra rb)
  | "MUL.Q32.Q16", [rd, ra, rb], none => some (.mulQ32Q16 rd ra rb)
  | "MUL.Q32.U16", [rd, ra, rb], none => some (.mulQ32U16 rd ra rb)
  | "MUL.Q1616.Q16", [rd, ra, rb], none => some (.mulQ1616Q16 rd ra rb)
  | "MUL.Q1616.U16", [rd, ra, rb], none => some (.mulQ1616U16 rd ra rb)
  | "MUL.Q1616.Q1616", [rd, ra, rb], none => some (.mulQ1616Q1616 rd ra rb)
  | "VMUL.Q15.Q16", [rd, ra, rb, rc], none => some (.vmulQ15Q16 rd ra rb rc)
  | "DIV.Q16.Q16", [rd, ra, rb], none => some (.divQ16Q16 rd ra rb)
  | "INTERP.Q15", [rd, ra, rb, rc], none => some (.interpQ15 rd ra rb rc)
  | "LUT.Q15", [rd, ra, rb], none => some (.lutQ15 rd ra rb)
  | "SIN.Q15", [rd, ra], none => some (.sinQ15 rd ra)
  | _, _, _ => none

/-- A register operand is written `x0` to `x15` (R68). -/
def AsmLine.registersInRange : AsmLine → Bool
  | .command _ regs _ => regs.all (· < 16)
  | .li32 rd rt _ => rd < 16 && rt < 16

/-- An immediate must be in 0 to 65535 (R68); `LI32`'s in 0 to 0xFFFFFFFF (R69). -/
def AsmLine.immediateInRange : AsmLine → Bool
  | .command _ _ imm => imm.all (· < 65536)
  | .li32 _ _ imm32 => imm32 < 4294967296

/-- The mnemonic is one of R63 and its operands are exactly the ones it uses (R68). -/
def AsmLine.operandsMatch : AsmLine → Bool
  | .command m regs imm => (commandOf m (regs.map fun r => Fin.ofNat 16 r) (imm.map fun n => BitVec.ofNat 16 n)).isSome
  | .li32 _ _ _ => true

/-- `LI32` needs a scratch register other than its destination: rd ≠ rt (R69). -/
def AsmLine.scratchDiffers : AsmLine → Bool
  | .command _ _ _ => true
  | .li32 rd rt _ => rd != rt

/-- A well-formed line of assembly: every check holds. -/
def AsmLine.wf (l : AsmLine) : Bool :=
  l.registersInRange && l.immediateInRange && l.operandsMatch && l.scratchDiffers

/-- The expansion of `LI32 rd, rt, imm32`: `LDI rt, imm32[31:16]`; `LDI rd, imm32[15:0]`; `PACK rd, rt, rd` (R69). -/
def expandLi32 (rd rt : Reg) (imm32 : Word) : List Instr :=
  [.ldi rt (imm32.extractLsb' 16 16), .ldi rd (imm32.extractLsb' 0 16), .pack rd rt rd]

/-- The commands of a line of assembly; none for an ill-formed line. -/
def AsmLine.assemble (l : AsmLine) : Option (List Instr) :=
  if l.wf then
    match l with
    | .command m regs imm =>
      (commandOf m (regs.map fun r => Fin.ofNat 16 r) (imm.map fun n => BitVec.ofNat 16 n)).map fun i => [i]
    | .li32 rd rt imm32 => some (expandLi32 (Fin.ofNat 16 rd) (Fin.ofNat 16 rt) (BitVec.ofNat 32 imm32))
  else none

end Sys2Proof
end

