-- ==== Sys2Proof/Certificates/Slice0/Obligations.lean ====
section
/-! DEFINITION. The statements for the provers, one def Obligations.<Name> : Prop each (OBLIGATIONS.json lists them), and the
few definitions they are written with. The readings and slices here are written with core BitVec operations, not with the
model's own, so that a statement says what the rule says.

Where a statement rests on a choice: what a command computes is in the spec's source; the block around it (registers, command
words, ports, STATUS, stalls, the memory port, reset) is the spec's own decision, D1 to D43 of spec/92_eei_decisions.md,
with D25 for the naive shift of a negative input, D27 for the wrap of an overflowing multiply, D29 for partial overlap and
D32, D36 for ties and the sum of the sine. Such statements are listed as derived. The log (notes/assumptions) names the
model's own choices, among them the fault marks of a run (log entry 8), which many next states below carry; no
statement rests on the value of a register, of memory or of a free value. -/

namespace Sys2Proof.Claims

open Sys2Proof.Machine

/-- Bits 15:0 of register r (R17). -/
def low (s : State) (r : Reg) : Half := (s.x r).setWidth 16

/-- Bits 31:16 of register r (R11). -/
def high (s : State) (r : Reg) : Half := (s.x r >>> 16).setWidth 16

/-- The marks after the registers `srcs` have been read: reading one never written marks the run (R23). -/
def readMarks (s : State) (srcs : List Reg) : FaultMarks :=
  { s.marks with unwrittenRead := s.marks.unwrittenRead || srcs.any fun r => !s.written[r.val] }

/-- Whether none of the registers `srcs` was never written: row 5 of R163 does not apply, so rows 2 and 3 may (R166). -/
def allWritten (s : State) (srcs : List Reg) : Bool := srcs.all fun r => s.written[r.val]

/-- The state after a command that read `srcs`, wrote `v` to `rd` and retired; nothing else changes (R80). -/
def afterWrite (s : State) (srcs : List Reg) (rd : Reg) (v : Word) : State :=
  { s with
    regs := s.regs.set rd.val v
    written := s.written.set rd.val true
    marks := readMarks s srcs
    cix := s.cix + 1 }

/-- The same for a 16-bit result, which is written zero-extended (R17). -/
def afterWrite16 (s : State) (srcs : List Reg) (rd : Reg) (r : Half) : State := afterWrite s srcs rd (0#16 ++ r)

/-- Some commands, one after another, with nothing between them. -/
def runAll : List Instr → State → Host.Outcome State Fault Refusal
  | [], s => .next s
  | i :: rest, s =>
    match exec i s with
    | .next t => runAll rest t
    | .fault e => .fault e
    | .refused r => .refused r

/-- Word `i` of a sequence at word address `b`, modulo 2^16 (R41, R45). -/
def element (b : Half) (i : Nat) : Half := BitVec.ofNat 16 (b.toNat + i)

/-- The scalar product of R105: floor(s16(a)·u16(c) / 2^16), 16 bits. -/
def scaled (a c : Half) : Half := BitVec.ofInt 16 (Int.fdiv (a.toInt * c.toNat) 65536)

/-- The element loop of R47, `n` elements from index `i` on: each element is read, scaled and written before the next. -/
def loop (dst src c : Half) : Nat → Nat → Memory → Memory
  | _, 0, m => m
  | i, n + 1, m => loop dst src c (i + 1) n (m.writeWord (element dst i) (scaled (m.readWord (element src i)) c))

/-- Every register-writing command in whose result no upper half can matter: those of which R64 says that they read the low halves
of all their sources; `LO`, which R64 lists as reading all 32 bits and whose result is bits 15:0 (R83); and `LDI`, which reads
no register (R81). -/
def ReadsLowHalvesOnly : Instr → Prop
  | .hi _ _ | .cvtQ1516Q16 _ _ | .mulQ15Q1616 _ _ _ | .mulQ32Q16 _ _ _ | .mulQ32U16 _ _ _ => False
  | .mulQ1616Q16 _ _ _ | .mulQ1616U16 _ _ _ | .mulQ1616Q1616 _ _ _ | .vmulQ15Q16 _ _ _ _ => False
  | _ => True

/-- The 24 pairs (match, mask) of R63. -/
def maskTable : List (Word × Word) := [
  (0x01000000, 0xFF0F0000), (0x02000000, 0xFF00FFFF), (0x03000000, 0xFF00FFFF), (0x04000000, 0xFF000FFF),
  (0x10000000, 0xFF00FFFF), (0x11000000, 0xFF00FFFF), (0x12000000, 0xFF00FFFF), (0x13000000, 0xFF00FFFF),
  (0x14000000, 0xFF00FFFF), (0x20000000, 0xFF00FFFF), (0x21000000, 0xFF000FFF), (0x22000000, 0xFF000FFF),
  (0x23000000, 0xFF000FFF), (0x24000000, 0xFF000FFF), (0x25000000, 0xFF000FFF), (0x26000000, 0xFF000FFF),
  (0x27000000, 0xFF000FFF), (0x28000000, 0xFF000FFF), (0x29000000, 0xFF000FFF), (0x2A000000, 0xFF0000FF),
  (0x2B000000, 0xFF000FFF), (0x30000000, 0xFF0000FF), (0x31000000, 0xFF000FFF), (0x40000000, 0xFF00FFFF)]

/-- The format-R opcodes of R63, each with how many register fields its command uses (2: rd, ra; 3: and rb; 4: and rc). -/
def registerFields : List (Nat × Nat) := [
  (0x02, 2), (0x03, 2), (0x04, 3), (0x10, 2), (0x11, 2), (0x12, 2), (0x13, 2), (0x14, 2), (0x20, 2), (0x21, 3), (0x22, 3),
  (0x23, 3), (0x24, 3), (0x25, 3), (0x26, 3), (0x27, 3), (0x28, 3), (0x29, 3), (0x2A, 4), (0x2B, 3), (0x30, 4), (0x31, 3),
  (0x40, 2)]

end Sys2Proof.Claims

open Sys2Proof Sys2Proof.Machine Sys2Proof.Claims

/-! ## Encoding -/

/-- Decoding reads back every operand of every command (R61 to R65). -/
def Obligations.DecodeOfEncodeIsTheCommand : Prop := ∀ i : Instr, decodeWord (encode i) = .command i

/-- A legal word is the encoding of the command it decodes to: no bit of it is ignored (R62, R66). -/
def Obligations.LegalWordIsItsCommandsEncoding : Prop :=
  ∀ (w : Word) (i : Instr), decodeWord w = .command i → encode i = w

/-- A word is a command exactly when (w AND mask) = match for a row of R63, and no word matches two rows (R62). -/
def Obligations.LegalExactlyWhenARowMatches : Prop :=
  (∀ w : Word, (∃ i, decodeWord w = .command i) ↔ ∃ p ∈ maskTable, w &&& p.2 = p.1) ∧
  (∀ w : Word, ∀ p ∈ maskTable, ∀ q ∈ maskTable, w &&& p.2 = p.1 → w &&& q.2 = q.1 → p = q)

/-- R66: the four cases in which a word is illegal. -/
def Obligations.IllegalInExactlyFourCases : Prop :=
  ∀ w : Word, (∃ why, decodeWord w = .illegal why) ↔
    (w.toNat / 2 ^ 24 ≠ 0x01 ∧ ∀ p ∈ registerFields, w.toNat / 2 ^ 24 ≠ p.1) ∨
    (∃ p ∈ registerFields, w.toNat / 2 ^ 24 = p.1 ∧ w.toNat % 2 ^ 8 ≠ 0) ∨
    (∃ p ∈ registerFields, w.toNat / 2 ^ 24 = p.1 ∧
      ((p.2 < 3 ∧ w.toNat / 2 ^ 12 % 16 ≠ 0) ∨ (p.2 < 4 ∧ w.toNat / 2 ^ 8 % 16 ≠ 0))) ∨
    (w.toNat / 2 ^ 24 = 0x01 ∧ w.toNat / 2 ^ 16 % 16 ≠ 0)

/-- The word of each command as its rule's Encoding line gives it (R81 to R84, R91 to R95, R101, R104 to R112, R114, R121, R132,
R134, R143). -/
def Obligations.CommandWordsAreTheGivenSums : Prop :=
  ∀ (rd ra rb rc : Reg) (imm : Half),
    let two := fun k : Nat => k + rd.val * 2 ^ 20 + ra.val * 2 ^ 16
    let three := fun k : Nat => two k + rb.val * 2 ^ 12
    let four := fun k : Nat => three k + rc.val * 2 ^ 8
    (encode (.ldi rd imm)).toNat = 0x01000000 + rd.val * 2 ^ 20 + imm.toNat ∧
    (encode (.hi rd ra)).toNat = two 0x02000000 ∧
    (encode (.lo rd ra)).toNat = two 0x03000000 ∧
    (encode (.pack rd ra rb)).toNat = three 0x04000000 ∧
    (encode (.cvtQ15Q16N rd ra)).toNat = two 0x10000000 ∧
    (encode (.cvtQ15Q16S rd ra)).toNat = two 0x11000000 ∧
    (encode (.cvtQ16Q1516 rd ra)).toNat = two 0x12000000 ∧
    (encode (.cvtQ16Q15 rd ra)).toNat = two 0x13000000 ∧
    (encode (.cvtQ1516Q16 rd ra)).toNat = two 0x14000000 ∧
    (encode (.absQ15 rd ra)).toNat = two 0x20000000 ∧
    (encode (.mulQ15Q15 rd ra rb)).toNat = three 0x21000000 ∧
    (encode (.mulQ15Q16 rd ra rb)).toNat = three 0x22000000 ∧
    (encode (.mulQ15Q1616 rd ra rb)).toNat = three 0x23000000 ∧
    (encode (.mulQ16Q16 rd ra rb)).toNat = three 0x24000000 ∧
    (encode (.mulQ32Q16 rd ra rb)).toNat = three 0x25000000 ∧
    (encode (.mulQ32U16 rd ra rb)).toNat = three 0x26000000 ∧
    (encode (.mulQ1616Q16 rd ra rb)).toNat = three 0x27000000 ∧
    (encode (.mulQ1616U16 rd ra rb)).toNat = three 0x28000000 ∧
    (encode (.mulQ1616Q1616 rd ra rb)).toNat = three 0x29000000 ∧
    (encode (.vmulQ15Q16 rd ra rb rc)).toNat = four 0x2A000000 ∧
    (encode (.divQ16Q16 rd ra rb)).toNat = three 0x2B000000 ∧
    (encode (.interpQ15 rd ra rb rc)).toNat = four 0x30000000 ∧
    (encode (.lutQ15 rd ra rb)).toNat = three 0x31000000 ∧
    (encode (.sinQ15 rd ra)).toNat = two 0x40000000

/-- Words of spec/95_test_vectors.md 2.1 decode to the commands they are listed for, and illegal ones to none. -/
def Obligations.SampleWordsDecode : Prop :=
  decodeWord 0x01104000 = .command (.ldi 1 0x4000) ∧
  decodeWord 0x04012000 = .command (.pack 0 1 2) ∧
  decodeWord 0x14010000 = .command (.cvtQ1516Q16 0 1) ∧
  decodeWord 0x22312000 = .command (.mulQ15Q16 3 1 2) ∧
  decodeWord 0x2A456700 = .command (.vmulQ15Q16 4 5 6 7) ∧
  decodeWord 0x30FEDC00 = .command (.interpQ15 15 14 13 12) ∧
  decodeWord 0x40010000 = .command (.sinQ15 0 1) ∧
  (∃ why, decodeWord 0x00000000 = .illegal why) ∧
  (∃ why, decodeWord 0x10011000 = .illegal why) ∧
  (∃ why, decodeWord 0x011F4000 = .illegal why)

/-! ## What the commands write: each is a completion, an equation for the next state -/

/-- `LDI`, `HI`, `LO`, `PACK`: the pseudocode of R81 to R84, nothing else changed (R80). -/
def Obligations.TypeModelCommandsMoveHalves : Prop :=
  ∀ (s : State) (rd ra rb : Reg) (imm : Half),
    exec (.ldi rd imm) s = .next (afterWrite16 s [] rd imm) ∧
    exec (.hi rd ra) s = .next (afterWrite16 s [ra] rd (high s ra)) ∧
    exec (.lo rd ra) s = .next (afterWrite16 s [ra] rd (low s ra)) ∧
    exec (.pack rd ra rb) s = .next (afterWrite s [ra, rb] rd (low s ra ++ low s rb))

/-- The five conversions by the value of their result (R91 to R95): the naive shift is exact on a non-negative input and wraps
on a negative one (D25); the saturating ones clamp; the right shift truncates. -/
def Obligations.ConversionsHaveTheirValues : Prop :=
  ∀ (s : State) (rd ra : Reg),
    (∃ r : Half, exec (.cvtQ15Q16N rd ra) s = .next (afterWrite16 s [ra] rd r) ∧
      r.toNat = 2 * (low s ra).toNat % 65536 ∧
      (0 ≤ (low s ra).toInt → (r.toNat : Int) = 2 * (low s ra).toInt)) ∧
    (∃ r : Half, exec (.cvtQ15Q16S rd ra) s = .next (afterWrite16 s [ra] rd r) ∧
      (r.toNat : Int) = 2 * max 0 (low s ra).toInt) ∧
    (∃ p : Word, exec (.cvtQ16Q1516 rd ra) s = .next (afterWrite s [ra] rd p) ∧ p.toNat = (low s ra).toNat) ∧
    (∃ r : Half, exec (.cvtQ16Q15 rd ra) s = .next (afterWrite16 s [ra] rd r) ∧ r.toNat = (low s ra).toNat / 2) ∧
    (∃ r : Half, exec (.cvtQ1516Q16 rd ra) s = .next (afterWrite16 s [ra] rd r) ∧
      (r.toNat : Int) = max 0 (min (s.x ra).toInt 65535))

/-- R101, S1: the magnitude, saturated to 32767, so that bit 15 of the result is 0; and the command's word. -/
def Obligations.AbsoluteValueSaturates : Prop :=
  ∀ (s : State) (rd ra : Reg),
    (encode (.absQ15 rd ra)).toNat = 0x20000000 + rd.val * 2 ^ 20 + ra.val * 2 ^ 16 ∧
    ∃ r : Half, exec (.absQ15 rd ra) s = .next (afterWrite16 s [ra] rd r) ∧
      r.toInt = min |(low s ra).toInt| 32767 ∧ r.getLsbD 15 = false

/-- The multiplies with a 16-bit result: floor of the exact product over the power of two, low 16 bits kept (R104 to R107). -/
def Obligations.HalfWordMultipliesTruncateAndWrap : Prop :=
  ∀ (s : State) (rd ra rb : Reg),
    exec (.mulQ15Q15 rd ra rb) s = .next (afterWrite16 s [ra, rb] rd
      (BitVec.ofInt 16 (Int.fdiv ((low s ra).toInt * (low s rb).toInt) 32768))) ∧
    exec (.mulQ15Q16 rd ra rb) s = .next (afterWrite16 s [ra, rb] rd
      (BitVec.ofInt 16 (Int.fdiv ((low s ra).toInt * (low s rb).toNat) 65536))) ∧
    exec (.mulQ15Q1616 rd ra rb) s = .next (afterWrite16 s [ra, rb] rd
      (BitVec.ofInt 16 (Int.fdiv ((low s ra).toInt * (s.x rb).toNat) 65536))) ∧
    exec (.mulQ16Q16 rd ra rb) s = .next (afterWrite16 s [ra, rb] rd
      (BitVec.ofNat 16 ((low s ra).toNat * (low s rb).toNat / 65536)))

/-- The multiplies with a 32-bit result (R108 to R112). -/
def Obligations.WordMultipliesTruncateAndWrap : Prop :=
  ∀ (s : State) (rd ra rb : Reg),
    exec (.mulQ32Q16 rd ra rb) s = .next (afterWrite s [ra, rb] rd
      (BitVec.ofNat 32 ((s.x ra).toNat * (low s rb).toNat / 65536))) ∧
    exec (.mulQ32U16 rd ra rb) s = .next (afterWrite s [ra, rb] rd
      (BitVec.ofNat 32 ((s.x ra).toNat * (low s rb).toNat))) ∧
    exec (.mulQ1616Q16 rd ra rb) s = .next (afterWrite s [ra, rb] rd
      (BitVec.ofNat 32 ((s.x ra).toNat * (low s rb).toNat / 65536))) ∧
    exec (.mulQ1616U16 rd ra rb) s = .next (afterWrite s [ra, rb] rd
      (BitVec.ofNat 32 ((s.x ra).toNat * (low s rb).toNat))) ∧
    exec (.mulQ1616Q1616 rd ra rb) s = .next (afterWrite s [ra, rb] rd
      (BitVec.ofNat 32 ((s.x ra).toNat * (s.x rb).toNat / 65536)))

/-- R121: for a non-zero denominator, the Q16.16 quotient, which always fits 32 bits. -/
def Obligations.QuotientIsTheFloor : Prop :=
  ∀ (s : State) (rd ra rb : Reg), low s rb ≠ 0 → ∃ q : Word,
    exec (.divQ16Q16 rd ra rb) s = .next (afterWrite s [ra, rb] rd q) ∧
    q.toNat = (low s ra).toNat * 65536 / (low s rb).toNat

/-- R122: a zero denominator raises nothing; `rd` gets some pattern, and no other register, status bit or memory word changes;
the run is marked, with row 2 unless a source was never written, when row 5 comes first (R166). That the step goes on with a
free value is the model's choice: log entry 3. -/
def Obligations.ZeroDenominatorWritesSomePattern : Prop :=
  ∀ (s : State) (rd ra rb : Reg), low s rb = 0 → ∃ v : Word,
    exec (.divQ16Q16 rd ra rb) s = .next
      { afterWrite s [ra, rb] rd v with
        marks := { readMarks s [ra, rb] with zeroDenominator := s.marks.zeroDenominator || allWritten s [ra, rb] }
        free := s.free + 1 }

/-- R132: the product of the exact difference and the weight, rounded half up once, added to the first sample. -/
def Obligations.InterpolationRoundsOnce : Prop :=
  ∀ (s : State) (rd ra rb rc : Reg),
    exec (.interpQ15 rd ra rb rc) s = .next (afterWrite16 s [ra, rb, rc] rd
      (BitVec.ofInt 16 ((low s ra).toInt +
        Int.fdiv (((low s rb).toInt - (low s ra).toInt) * (low s rc).toNat + 32768) 65536)))

/-- R134: with both words backed, the interpolation of table[idx] and table[idx+1] by the weight byte. -/
def Obligations.TableLookUpInterpolatesTwoWords : Prop :=
  ∀ (s : State) (rd ra rb : Reg) (idx w : Nat), w < 256 → (low s rb).toNat = 256 * idx + w →
    s.memValid (element (low s ra) idx) = true → s.memValid (element (low s ra) (idx + 1)) = true →
    exec (.lutQ15 rd ra rb) s = .next (afterWrite16 s [ra, rb] rd
      (let y1 := (s.mem.readWord (element (low s ra) idx)).toInt
       let y2 := (s.mem.readWord (element (low s ra) (idx + 1))).toInt
       BitVec.ofInt 16 (y1 + Int.fdiv ((y2 - y1) * w + 128) 256)))

/-- R43, R51, R163 row 6: when one of the two words is not backed, the model has no step; the fault names such a word
and carries the marks the run has after the sources were read, since row 5 comes before row 6 (R166). -/
def Obligations.TableLookUpSticksOnUnbackedWord : Prop :=
  ∀ (s : State) (rd ra rb : Reg) (idx w : Nat), w < 256 → (low s rb).toNat = 256 * idx + w →
    (s.memValid (element (low s ra) idx) = false ∨ s.memValid (element (low s ra) (idx + 1)) = false) →
    ∃ a, (a = element (low s ra) idx ∨ a = element (low s ra) (idx + 1)) ∧ s.memValid a = false ∧
      exec (.lutQ15 rd ra rb) s = .fault (.unbackedAccess a (readMarks s [ra, rb]))

/-- R143: intercept + floor(slope·f/256) of the pair the upper byte selects, cut to 16 bits, for every contents of the ROM. -/
def Obligations.SineEvaluatesItsSegment : Prop :=
  ∀ (s : State) (rd ra : Reg) (u f : Nat) (hu : u < 256), f < 256 → (low s ra).toNat = 256 * u + f →
    exec (.sinQ15 rd ra) s = .next (afterWrite16 s [ra] rd
      (BitVec.ofInt 16 ((s.sinRom[2 * u + 1]'(by omega)).toInt + Int.fdiv ((s.sinRom[2 * u]'(by omega)).toInt * f) 256)))

/-- R114, R32: with a length of at least 1 the command latches its four operands, all from low halves, and BUSY becomes 1; no
register and no memory word changes at the start. -/
def Obligations.VectorMultiplyLatchesItsOperands : Prop :=
  ∀ (s : State) (rd ra rb rc : Reg), low s rc ≠ 0 →
    exec (.vmulQ15Q16 rd ra rb rc) s = .next
      { s with
        marks := readMarks s [rd, ra, rb, rc]
        vmul := some
          { dst := low s rd, src := low s ra, scalar := low s rb, len := low s rc,
            count := (low s rc).toNat, index := 0, fetched := none } }

/-- R115: a zero length is not checked: the command starts all the same, with some number of elements to process, and the run
is marked, with row 3 unless a source was never written, when row 5 comes first (R166). That the number is a free value is the
model's choice: log entry 4. -/
def Obligations.ZeroLengthStartsSomeNumberOfElements : Prop :=
  ∀ (s : State) (rd ra rb rc : Reg), low s rc = 0 → ∃ n : Nat,
    exec (.vmulQ15Q16 rd ra rb rc) s = .next
      { s with
        marks := { readMarks s [rd, ra, rb, rc] with zeroLength := s.marks.zeroLength || allWritten s [rd, ra, rb, rc] }
        free := s.free + 1
        vmul := some
          { dst := low s rd, src := low s ra, scalar := low s rb, len := 0,
            count := n, index := 0, fetched := none } }

/-! ## Frames -/

/-- The frame of every command but `VMUL.Q15.Q16`, whatever its operands: it leaves every register but `rd`, every byte of
memory, STATUS, the ROM, what is backed and the host's side as they are, and retires (R80). -/
def Obligations.RegisterCommandsFrame : Prop :=
  ∀ (i : Instr) (s t : State) (rd : Reg), i.dest = some rd → exec i s = .next t →
    (∀ r, r ≠ rd → t.x r = s.x r ∧ t.isWritten r = s.isWritten r) ∧ t.isWritten rd = true ∧
    (∀ k, t.mem.readByte k = s.mem.readByte k) ∧ t.ill = s.ill ∧ t.vmul = s.vmul ∧ t.statusWord = s.statusWord ∧
    t.sinRom = s.sinRom ∧ t.backed = s.backed ∧ t.host = s.host ∧ t.answers = s.answers ∧ t.cix = s.cix + 1 ∧
    t.marks.illegalWord = s.marks.illegalWord ∧ t.marks.zeroLength = s.marks.zeroLength ∧
    ((∀ ra rb, i ≠ .divQ16Q16 rd ra rb) → t.free = s.free ∧ t.marks.zeroDenominator = s.marks.zeroDenominator)

/-- The frame of the start of `VMUL.Q15.Q16`, for every length: no register is written, no byte of memory, ILL, the ROM, what is
backed and the host's side stay, the command has not retired, and BUSY is 1 (R114, R27). -/
def Obligations.VectorMultiplyStartFrame : Prop :=
  ∀ (s t : State) (rd ra rb rc : Reg), exec (.vmulQ15Q16 rd ra rb rc) s = .next t →
    (∀ r, t.x r = s.x r ∧ t.isWritten r = s.isWritten r) ∧ (∀ k, t.mem.readByte k = s.mem.readByte k) ∧
    t.ill = s.ill ∧ t.sinRom = s.sinRom ∧ t.backed = s.backed ∧ t.host = s.host ∧ t.answers = s.answers ∧
    t.cix = s.cix ∧ t.marks.illegalWord = s.marks.illegalWord ∧ t.marks.zeroDenominator = s.marks.zeroDenominator ∧
    t.busy = true

/-- For 16-bit operands the upper half of a register is ignored (R17, R45, R64), and so it is by `LO` (R83), and `LDI` reads no
register (R81): two states that agree on low halves, memory, ROM and parameters give the same result. The low-half operands
of the multiplies that also read a whole register, and of `VMUL.Q15.Q16`, are in HalfWordMultipliesTruncateAndWrap,
WordMultipliesTruncateAndWrap and VectorMultiplyLatchesItsOperands. -/
def Obligations.UpperHalvesAreIgnored : Prop :=
  ∀ (i : Instr) (s s' t : State) (rd : Reg), ReadsLowHalvesOnly i → i.dest = some rd →
    (∀ r, low s r = low s' r) → s.mem = s'.mem → s.backed = s'.backed → s.sinRom = s'.sinRom → s.free = s'.free →
    exec i s = .next t → ∃ t', exec i s' = .next t' ∧ t'.x rd = t.x rd

/-! ## Laws of the arithmetic -/

/-- R103: the half-word decomposition gives the same result, as identities of integers and for the four composite multiplies.
Where `MUL.Q15.Q1616` or `MUL.Q1616.Q1616` overflows, the wrapped result on both sides is the spec's decision D27 (R102). -/
def Obligations.HalfWordDecompositionAgrees : Prop :=
  (∀ (a : Int) (bh bl : Nat),
    Int.fdiv (a * ((bh * 65536 + bl : Nat) : Int)) 65536 = a * bh + Int.fdiv (a * bl) 65536) ∧
  (∀ ah al bh bl : Nat,
    (ah * 65536 + al) * (bh * 65536 + bl) / 65536 = ah * bh * 65536 + ah * bl + al * bh + al * bl / 65536) ∧
  ∀ (s : State) (rd ra rb : Reg),
    let ah := (high s ra).toNat
    let al := (low s ra).toNat
    let bh := (high s rb).toNat
    let bl := (low s rb).toNat
    exec (.mulQ15Q1616 rd ra rb) s = .next (afterWrite16 s [ra, rb] rd
      (BitVec.ofInt 16 ((low s ra).toInt * bh + Int.fdiv ((low s ra).toInt * bl) 65536))) ∧
    exec (.mulQ1616Q1616 rd ra rb) s = .next (afterWrite s [ra, rb] rd
      (BitVec.ofNat 32 (ah * bh * 65536 + ah * bl + al * bh + al * bl / 65536))) ∧
    exec (.mulQ32Q16 rd ra rb) s = .next (afterWrite s [ra, rb] rd (BitVec.ofNat 32 (ah * bl + al * bl / 65536))) ∧
    exec (.mulQ1616Q16 rd ra rb) s = .next (afterWrite s [ra, rb] rd (BitVec.ofNat 32 (ah * bl + al * bl / 65536)))

/-- R113: a result never exceeds the exact product and is less than one unit below it: always for `MUL.Q16.Q16`, and for every
multiply whenever the exact product is in the output range, signed results included. -/
def Obligations.MultipliesNeverRoundUp : Prop :=
  ∀ (s : State) (rd ra rb : Reg),
    (∃ r : Half, exec (.mulQ16Q16 rd ra rb) s = .next (afterWrite16 s [ra, rb] rd r) ∧
      r.toNat * 65536 ≤ (low s ra).toNat * (low s rb).toNat ∧
      (low s ra).toNat * (low s rb).toNat < (r.toNat + 1) * 65536) ∧
    (∃ r : Half, exec (.mulQ15Q15 rd ra rb) s = .next (afterWrite16 s [ra, rb] rd r) ∧
      let p := (low s ra).toInt * (low s rb).toInt
      (-32768 * 32768 ≤ p → p < 32768 * 32768 → r.toInt * 32768 ≤ p ∧ p < (r.toInt + 1) * 32768)) ∧
    (∃ r : Half, exec (.mulQ15Q16 rd ra rb) s = .next (afterWrite16 s [ra, rb] rd r) ∧
      let p := (low s ra).toInt * (low s rb).toNat
      (-32768 * 65536 ≤ p → p < 32768 * 65536 → r.toInt * 65536 ≤ p ∧ p < (r.toInt + 1) * 65536)) ∧
    (∃ r : Half, exec (.mulQ15Q1616 rd ra rb) s = .next (afterWrite16 s [ra, rb] rd r) ∧
      let p := (low s ra).toInt * (s.x rb).toNat
      (-32768 * 65536 ≤ p → p < 32768 * 65536 → r.toInt * 65536 ≤ p ∧ p < (r.toInt + 1) * 65536)) ∧
    (∃ r : Word, exec (.mulQ32Q16 rd ra rb) s = .next (afterWrite s [ra, rb] rd r) ∧
      let p := (s.x ra).toNat * (low s rb).toNat
      (p < 2 ^ 32 * 65536 → r.toNat * 65536 ≤ p ∧ p < (r.toNat + 1) * 65536)) ∧
    (∃ r : Word, exec (.mulQ32U16 rd ra rb) s = .next (afterWrite s [ra, rb] rd r) ∧
      let p := (s.x ra).toNat * (low s rb).toNat
      (p < 2 ^ 32 → r.toNat ≤ p ∧ p < r.toNat + 1)) ∧
    (∃ r : Word, exec (.mulQ1616Q16 rd ra rb) s = .next (afterWrite s [ra, rb] rd r) ∧
      let p := (s.x ra).toNat * (low s rb).toNat
      (p < 2 ^ 32 * 65536 → r.toNat * 65536 ≤ p ∧ p < (r.toNat + 1) * 65536)) ∧
    (∃ r : Word, exec (.mulQ1616U16 rd ra rb) s = .next (afterWrite s [ra, rb] rd r) ∧
      let p := (s.x ra).toNat * (low s rb).toNat
      (p < 2 ^ 32 → r.toNat ≤ p ∧ p < r.toNat + 1)) ∧
    (∃ r : Word, exec (.mulQ1616Q1616 rd ra rb) s = .next (afterWrite s [ra, rb] rd r) ∧
      let p := (s.x ra).toNat * (s.x rb).toNat
      (p < 2 ^ 32 * 65536 → r.toNat * 65536 ≤ p ∧ p < (r.toNat + 1) * 65536))

/-- R104, R105, R107, R108, R110, U5: four multiplies cannot overflow, and `MUL.Q15.Q15` overflows at -1 × -1 alone, where it
returns -1. -/
def Obligations.WhichMultipliesOverflow : Prop :=
  ∀ (s : State) (rd ra rb : Reg),
    (∃ r : Half, exec (.mulQ15Q16 rd ra rb) s = .next (afterWrite16 s [ra, rb] rd r) ∧
      r.toInt = Int.fdiv ((low s ra).toInt * (low s rb).toNat) 65536) ∧
    (∃ r : Half, exec (.mulQ16Q16 rd ra rb) s = .next (afterWrite16 s [ra, rb] rd r) ∧
      r.toNat = (low s ra).toNat * (low s rb).toNat / 65536) ∧
    (∃ r : Word, exec (.mulQ32Q16 rd ra rb) s = .next (afterWrite s [ra, rb] rd r) ∧
      r.toNat = (s.x ra).toNat * (low s rb).toNat / 65536) ∧
    (∃ r : Word, exec (.mulQ1616Q16 rd ra rb) s = .next (afterWrite s [ra, rb] rd r) ∧
      r.toNat = (s.x ra).toNat * (low s rb).toNat / 65536) ∧
    (∃ r : Half, exec (.mulQ15Q15 rd ra rb) s = .next (afterWrite16 s [ra, rb] rd r) ∧
      (if low s ra = 0x8000 ∧ low s rb = 0x8000 then r = 0x8000
       else r.toInt = Int.fdiv ((low s ra).toInt * (low s rb).toInt) 32768))

/-- R123: x ÷ x is 1.0 for every x ≠ 0; the quotient is the floor; its integer half is zero exactly when n < d. -/
def Obligations.SelfQuotientIsOne : Prop :=
  (∀ (s : State) (rd ra : Reg), low s ra ≠ 0 →
    exec (.divQ16Q16 rd ra ra) s = .next (afterWrite s [ra, ra] rd 0x00010000)) ∧
  (∀ (s : State) (rd ra rb : Reg), low s rb ≠ 0 → ∃ q : Word,
    exec (.divQ16Q16 rd ra rb) s = .next (afterWrite s [ra, rb] rd q) ∧
    q.toNat * (low s rb).toNat ≤ (low s ra).toNat * 65536 ∧
    (low s ra).toNat * 65536 < (q.toNat + 1) * (low s rb).toNat ∧
    (q.toNat / 65536 = 0 ↔ (low s ra).toNat < (low s rb).toNat))

/-- R133 (1) to (3): at weight 0 the first sample; always between the samples; at weight 0xFFFF within one unit of the second,
and equal to it exactly when -32767 ≤ D ≤ 32768. -/
def Obligations.InterpolationStaysBetweenSamples : Prop :=
  ∀ (s : State) (rd ra rb rc : Reg), ∃ r : Half,
    exec (.interpQ15 rd ra rb rc) s = .next (afterWrite16 s [ra, rb, rc] rd r) ∧
    min (low s ra).toInt (low s rb).toInt ≤ r.toInt ∧ r.toInt ≤ max (low s ra).toInt (low s rb).toInt ∧
    (low s rc = 0 → r = low s ra) ∧
    (low s rc = 0xFFFF → |r.toInt - (low s rb).toInt| ≤ 1 ∧
      (r = low s rb ↔
        -32767 ≤ (low s rb).toInt - (low s ra).toInt ∧ (low s rb).toInt - (low s ra).toInt ≤ 32768))

/-- R133 (4): with the samples fixed, the result does not fall as the weight grows if y2 ≥ y1, and does not rise otherwise. -/
def Obligations.InterpolationIsMonotonic : Prop :=
  ∀ (s s' : State) (rd ra rb rc : Reg), low s ra = low s' ra → low s rb = low s' rb →
    (low s rc).toNat ≤ (low s' rc).toNat → ∃ r r' : Half,
      exec (.interpQ15 rd ra rb rc) s = .next (afterWrite16 s [ra, rb, rc] rd r) ∧
      exec (.interpQ15 rd ra rb rc) s' = .next (afterWrite16 s' [ra, rb, rc] rd r') ∧
      ((low s ra).toInt ≤ (low s rb).toInt → r.toInt ≤ r'.toInt) ∧
      ((low s rb).toInt < (low s ra).toInt → r'.toInt ≤ r.toInt)

/-- R136: at a segment boundary the table entry itself; always between the two samples; and the same as `INTERP.Q15` of the two
samples with the weight byte moved up. -/
def Obligations.TableLookUpIsTwoPointInterpolation : Prop :=
  ∀ (s : State) (rd ra rb : Reg) (idx w : Nat), w < 256 → (low s rb).toNat = 256 * idx + w →
    s.memValid (element (low s ra) idx) = true → s.memValid (element (low s ra) (idx + 1)) = true →
    ∃ r : Half, exec (.lutQ15 rd ra rb) s = .next (afterWrite16 s [ra, rb] rd r) ∧
      (w = 0 → r = s.mem.readWord (element (low s ra) idx)) ∧
      min (s.mem.readWord (element (low s ra) idx)).toInt (s.mem.readWord (element (low s ra) (idx + 1))).toInt ≤ r.toInt ∧
      r.toInt ≤
        max (s.mem.readWord (element (low s ra) idx)).toInt (s.mem.readWord (element (low s ra) (idx + 1))).toInt ∧
      ∀ (s' : State) (rd' ra' rb' rc' : Reg), low s' ra' = s.mem.readWord (element (low s ra) idx) →
        low s' rb' = s.mem.readWord (element (low s ra) (idx + 1)) → (low s' rc').toNat = w * 256 →
        exec (.interpQ15 rd' ra' rb' rc') s' = .next (afterWrite16 s' [ra', rb', rc'] rd' r)

/-- R143, R146: the product of the sine is the multiply of R105 with the fraction as a Q0.16 pattern, it lies between -32768 and
32640 and is 0 at f = 0, where the result is the intercept, whatever the ROM holds. -/
def Obligations.SineProductIsTheTruncatingMultiply : Prop :=
  ∀ (s : State) (rd ra : Reg) (u f : Nat) (hu : u < 256), f < 256 → (low s ra).toNat = 256 * u + f →
    ∃ m : Int, m = (scaled (s.sinRom[2 * u]'(by omega)) (BitVec.ofNat 16 (f * 256))).toInt ∧
      -32768 ≤ m ∧ m ≤ 32640 ∧ (f = 0 → m = 0) ∧
      exec (.sinQ15 rd ra) s = .next (afterWrite16 s [ra] rd
        (BitVec.ofInt 16 ((s.sinRom[2 * u + 1]'(by omega)).toInt + m)))

/-- R144 (1), S5: with the ROM the block has after reset, the sine of 0 is exactly 0; the ROM's other words are open. -/
def Obligations.SineOfZeroIsZero : Prop :=
  ∀ (s : State) (rd ra : Reg), s.sinRom = State.reset.sinRom → low s ra = 0 →
    exec (.sinQ15 rd ra) s = .next (afterWrite16 s [ra] rd 0)

/-! ## Sequences of commands -/

/-- R85: splitting a pattern and packing its halves gives it back, and packing two halves and splitting gives them back (each read
right after its command). -/
def Obligations.SplittingAndPackingAreInverse : Prop :=
  (∀ (s : State) (a h l d : Reg), a ≠ h → a ≠ l → h ≠ l →
    ∃ t, runAll [.hi h a, .lo l a, .pack d h l] s = .next t ∧ t.x d = s.x a) ∧
  (∀ (s : State) (a b d h l : Reg), h ≠ d →
    ∃ t u, runAll [.pack d a b, .hi h d] s = .next t ∧ exec (.lo l d) t = .next u ∧
      t.x h = (low s a).setWidth 32 ∧ u.x l = (low s b).setWidth 32)

/-- R96: Q0.16 to Q15.16 and back is the identity on Q0.16; the other direction is not an identity, it clamps. -/
def Obligations.WideningAndNarrowingIsTheIdentity : Prop :=
  (∀ (s : State) (r t d : Reg), ∃ u,
    runAll [.cvtQ16Q1516 t r, .cvtQ1516Q16 d t] s = .next u ∧ u.x d = (low s r).setWidth 32) ∧
  (∀ (s : State) (r t d : Reg), ∃ u,
    runAll [.cvtQ1516Q16 t r, .cvtQ16Q1516 d t] s = .next u ∧
      ((u.x d).toNat : Int) = max 0 (min (s.x r).toInt 65535))

/-- R69: `LI32 rd, rt, imm32` is three commands, after which rd holds the pattern and rt its upper half. -/
def Obligations.PseudoCommandBuildsThePattern : Prop :=
  ∀ (s : State) (rd rt : Reg) (imm32 : Word), rd ≠ rt →
    expandLi32 rd rt imm32 = [.ldi rt ((imm32 >>> 16).setWidth 16), .ldi rd (imm32.setWidth 16), .pack rd rt rd] ∧
    ∃ t, runAll (expandLi32 rd rt imm32) s = .next t ∧ t.x rd = imm32 ∧
      t.x rt = ((imm32 >>> 16).setWidth 16).setWidth 32

/-! ## Faults and preconditions -/

/-- R160: a command is never refused and stops only where a table look-up meets a word that is not backed; whenever it goes on,
ILL and the mark of an illegal word are as they were, and the fault carries the run's marks (R166). -/
def Obligations.LegalCommandsRaiseNothing : Prop :=
  ∀ (i : Instr) (s : State),
    (∃ t, exec i s = .next t ∧ t.ill = s.ill ∧ t.marks.illegalWord = s.marks.illegalWord) ∨
    (∃ rd ra rb a, i = .lutQ15 rd ra rb ∧ s.memValid a = false ∧
      exec i s = .fault (.unbackedAccess a (readMarks s [ra, rb])))

/-- R183, R163: a command whose preconditions the host has seen to goes on and leaves the run unmarked. -/
def Obligations.PreconditionsKeepTheRunUnmarked : Prop :=
  ∀ (i : Instr) (s : State), Preconditions i s →
    ∃ t, exec i s = .next t ∧ t.marks = s.marks ∧ t.faulted = s.faulted

/-- R161: an illegal word written to CMD sets ILL, retires at once, and changes nothing else of the block; the run is marked (R162;
log entry 8). -/
def Obligations.IllegalWordSetsOnlyIll : Prop :=
  ∀ (s : State) (w : Word) (why : IllegalReason) (rest : List HostAction),
    decodeWord w = .illegal why → s.busy = false → s.host = .writePort .cmd w :: rest →
    step s = .next
      { s with host := rest, ill := true, marks := { s.marks with illegalWord := true }, cix := s.cix + 1 }

/-- R162, R167: only reset clears ILL. -/
def Obligations.IllStaysUntilReset : Prop :=
  ∀ s t : State, step s = .next t → s.ill = true → s.host.head? ≠ some .reset → t.ill = true

/-- R28, R160: ILL becomes 1 only by an illegal word written to CMD. -/
def Obligations.OnlyIllegalWordsSetIll : Prop :=
  ∀ s t : State, step s = .next t → s.ill = false → t.ill = true →
    ∃ w why, s.host.head? = some (.writePort .cmd w) ∧ decodeWord w = .illegal why

/-! ## The step, the host port and reset -/

/-- A step runs the decoded command: the word the host writes to CMD is decoded and executed on the state without that write, and
so is the word `withFetchWord` places (R25, R62). -/
def Obligations.StepRunsTheDecodedCommand : Prop :=
  (∀ (s : State) (w : Word) (i : Instr) (rest : List HostAction),
    decodeWord w = .command i → s.busy = false → s.host = .writePort .cmd w :: rest →
    step s = exec i { s with host := rest }) ∧
  (∀ (s : State) (nbits w : Nat) (i : Instr), decodeTableWord nbits w = some i →
    step (s.withFetchWord nbits w) = exec i { s with vmul := none })

/-- R34, R188: while BUSY, an access that must wait stays first in the host's list, the block takes its own access, and no register
changes. -/
def Obligations.StallingAccessWaitsForTheBlock : Prop :=
  ∀ (s : State) (a : HostAction) (rest : List HostAction), s.host = a :: rest → s.busy = true →
    ((∃ r, a = .readPort (.reg r)) ∨ (∃ r w, a = .writePort (.reg r) w) ∨ (∃ w, a = .writePort .cmd w)) →
    step s = blockStep s ∧ ∀ t, step s = .next t → t.host = s.host ∧ t.regs = s.regs

/-- R188, R34: while BUSY no register changes and none becomes written, whatever the host does short of reset. -/
def Obligations.RegistersAreFixedWhileBusy : Prop :=
  ∀ s t : State, step s = .next t → s.busy = true → s.host.head? ≠ some .reset →
    t.regs = s.regs ∧ t.written = s.written

/-- R22, R33: on an idle block a host read of ports 0 to 15 returns the register, and a host write replaces all of it. -/
def Obligations.HostReadsAndWritesRegisters : Prop :=
  ∀ (s : State) (r : Reg) (w : Word) (rest : List HostAction), s.busy = false →
    (s.host = .readPort (.reg r) :: rest → step s = .next
      { s with host := rest, answers := .port (.reg r) (s.x r) :: s.answers, marks := readMarks s [r] }) ∧
    (s.host = .writePort (.reg r) w :: rest → step s = .next
      { s with host := rest, regs := s.regs.set r.val w, written := s.written.set r.val true })

/-- R25, R26, R33: busy or not, a host read of CMD returns 0, a host read of STATUS returns BUSY in bit 0 and ILL in bit 1 and zero
elsewhere, and a host write of STATUS changes nothing. -/
def Obligations.CmdAndStatusPorts : Prop :=
  ∀ (s : State) (w : Word) (rest : List HostAction),
    (s.host = .readPort .cmd :: rest → step s = .next { s with host := rest, answers := .port .cmd 0 :: s.answers }) ∧
    (s.host = .readPort .status :: rest → ∃ v : Word,
      step s = .next { s with host := rest, answers := .port .status v :: s.answers } ∧
      v.getLsbD 0 = s.vmul.isSome ∧ v.getLsbD 1 = s.ill ∧ ∀ k, 2 ≤ k → v.getLsbD k = false) ∧
    (s.host = .writePort .status w :: rest → step s = .next { s with host := rest })

/-- R40, R52: a host access to a backed word takes effect at once, busy or not: a read returns the word, a write makes it hold the
value and changes no other byte. -/
def Obligations.HostReadsAndWritesMemory : Prop :=
  ∀ (s : State) (a v : Half) (rest : List HostAction), s.memValid a = true → s.mem.wf = true →
    (s.host = .readMem a :: rest →
      step s = .next { s with host := rest, answers := .mem a (s.mem.readWord a) :: s.answers }) ∧
    (s.host = .writeMem a v :: rest → ∃ m, step s = .next { s with host := rest, mem := m } ∧ m.readWord a = v ∧
      ∀ k, k ≠ 2 * a.toNat → k ≠ 2 * a.toNat + 1 → m.readByte k = s.mem.readByte k)

/-- R180, R35: reset takes effect at any time, also while BUSY: nothing in flight, STATUS 0, no register written, `cix` 0; the ROM,
data memory and what is backed stay. Three clauses are the model's choice, log entry 16: an element read and not yet written
is left unwritten (R181 leaves it open), and the host's list and answers and the run's fault marks stay. -/
def Obligations.ResetLeavesMemoryAndRom : Prop :=
  ∀ (s : State) (rest : List HostAction), s.host = .reset :: rest → ∃ t, step s = .next t ∧
    t.busy = false ∧ t.statusWord = 0 ∧ t.marks = s.marks ∧ (∀ r, t.isWritten r = false) ∧ t.cix = 0 ∧
    t.sinRom = s.sinRom ∧ t.mem = s.mem ∧ t.backed = s.backed ∧ t.host = rest ∧ t.answers = s.answers

/-- R35, R182: the state after reset: STATUS 0, nothing in flight, every register counted as never written, the ROM holding
`SINTAB`, `cix` 0. -/
def Obligations.StateAfterReset : Prop :=
  State.reset.statusWord = 0 ∧ State.reset.vmul = none ∧ (∀ r, State.reset.isWritten r = false) ∧
  State.reset.sinRom = Config.sinRom ∧ State.reset.cix = 0 ∧ State.reset.faulted = false

/-! ## The vector multiply as the machine runs it -/

/-- R47, R27: with the host silent, what each access of a flight does: the read of the next source element, the write of the
scaled element, and, all elements done, the end. -/
def Obligations.VectorMultiplyTakesOneAccessAStep : Prop :=
  ∀ (s : State) (v : VmulFlight), s.vmul = some v → s.host = [] →
    (v.fetched = none → v.index < v.count → s.memValid (element v.src v.index) = true →
      step s = .next { s with vmul := some { v with fetched := some (s.mem.readWord (element v.src v.index)) } }) ∧
    (∀ e, v.fetched = some e → s.memValid (element v.dst v.index) = true →
      step s = .next
        { s with mem := s.mem.writeWord (element v.dst v.index) (scaled e v.scalar),
                 vmul := some { v with index := v.index + 1, fetched := none } }) ∧
    (v.fetched = none → v.count ≤ v.index → step s = .next { s with vmul := none, cix := s.cix + 1 })

/-- The frame of the block's own step during a flight: every byte of memory but the two of the destination element being written
stays, every byte when none is being written; registers, ILL, the ROM, what is backed, the marks and the host's side stay
(R42, R47, R188). -/
def Obligations.VectorMultiplyAccessFrame : Prop :=
  ∀ (s t : State) (v : VmulFlight), s.vmul = some v → s.mem.wf = true → blockStep s = .next t →
    (∀ k, (v.fetched ≠ none → k ≠ 2 * (element v.dst v.index).toNat ∧ k ≠ 2 * (element v.dst v.index).toNat + 1) →
      t.mem.readByte k = s.mem.readByte k) ∧
    t.regs = s.regs ∧ t.written = s.written ∧ t.ill = s.ill ∧ t.sinRom = s.sinRom ∧ t.backed = s.backed ∧
    t.marks = s.marks ∧ t.host = s.host ∧ t.answers = s.answers ∧ t.free = s.free

/-- R47, R190: with the host silent and every element's words backed, a flight of which `index` elements are done takes exactly two
accesses for each element left and one step to finish, and leaves memory as the loop leaves it, whatever the ranges overlap.
The number of steps rests on the model's reading that a read, a write and the end are a step each: log entry 12 (R37 makes an
element one step). -/
def Obligations.VectorMultiplyRunsTheLoop : Prop :=
  ∀ (s : State) (v : VmulFlight), s.vmul = some v → s.host = [] → v.fetched = none → v.index ≤ v.count →
    (∀ i, v.index ≤ i → i < v.count →
      s.memValid (element v.src i) = true ∧ s.memValid (element v.dst i) = true) →
    Host.Core.run Sys2Proof.core (2 * (v.count - v.index) + 1) s = .next
      { s with vmul := none, cix := s.cix + 1,
               mem := loop v.dst v.src v.scalar v.index (v.count - v.index) s.mem }

/-- R114, R57, S8: from the command to its end, for the same sequence or disjoint ones: every destination element is the scalar
product of the original source element, every byte outside the destination is as before, no register changes, BUSY is 0 and
the command has retired. The number of steps rests on the model's choice of a step for each access: log entry 12. Partial
overlap is left to VectorMultiplyRunsTheLoop (R57). -/
def Obligations.VectorMultiplyScalesEveryElement : Prop :=
  ∀ (s : State) (rd ra rb rc : Reg) (n : Nat), n = (low s rc).toNat → n ≠ 0 → s.host = [] → s.mem.wf = true →
    (∀ i, i < n → s.memValid (element (low s ra) i) = true ∧ s.memValid (element (low s rd) i) = true) →
    (low s rd = low s ra ∨ ∀ i, i < n → ∀ j, j < n → element (low s rd) i ≠ element (low s ra) j) →
    ∃ t u, exec (.vmulQ15Q16 rd ra rb rc) s = .next t ∧ Host.Core.run Sys2Proof.core (2 * n + 1) t = .next u ∧
      (∀ i, i < n → u.mem.readWord (element (low s rd) i) =
        scaled (s.mem.readWord (element (low s ra) i)) (low s rb)) ∧
      (∀ k, (∀ i, i < n → k ≠ 2 * (element (low s rd) i).toNat ∧ k ≠ 2 * (element (low s rd) i).toNat + 1) →
        u.mem.readByte k = s.mem.readByte k) ∧
      u.regs = s.regs ∧ u.written = s.written ∧ u.ill = s.ill ∧ u.sinRom = s.sinRom ∧ u.busy = false ∧
      u.cix = s.cix + 1

/-- R43, R166: the first access to a word that is not backed is where the model sticks; the fault names the word and carries the
run's marks, so that a zero length or a never-written source noted at the start comes before it. -/
def Obligations.VectorMultiplySticksOnUnbackedWord : Prop :=
  ∀ (s : State) (v : VmulFlight), s.vmul = some v → s.host = [] →
    (v.fetched = none → v.index < v.count → s.memValid (element v.src v.index) = false →
      step s = .fault (.unbackedAccess (element v.src v.index) s.marks)) ∧
    (∀ e, v.fetched = some e → s.memValid (element v.dst v.index) = false →
      step s = .fault (.unbackedAccess (element v.dst v.index) s.marks))

/-- R190: with its words backed and the host silent, a flight at any point of its progress finishes, and within two accesses an
element and one step. That bound counts a step for each access, which is the model's choice: log entry 12 (R37 and R190
count one step an element). -/
def Obligations.FlightFinishes : Prop :=
  ∀ (s : State) (v : VmulFlight), s.vmul = some v → v.Consistent → s.host = [] →
    (∀ i, i < v.count → s.memValid (element v.src i) = true ∧ s.memValid (element v.dst i) = true) →
    ∃ k t, k ≤ 2 * v.count + 1 ∧ Host.Core.run Sys2Proof.core k s = .next t ∧ t.busy = false ∧ t.cix = s.cix + 1

/-- R186, R52: a host write that keeps the hazard rule can be moved over the block's access: the block does the same, and memory
ends the same. -/
def Obligations.HazardFreeHostWriteCommutes : Prop :=
  ∀ (s t : State) (v : VmulFlight) (a x : Half), s.vmul = some v → v.Consistent → s.mem.wf = true →
    ¬RacesWith v (.writeMem a x) → blockStep s = .next t →
    blockStep { s with mem := s.mem.writeWord a x } = .next { t with mem := t.mem.writeWord a x }

/-! ## What every step keeps -/

/-- The invariant holds after reset. -/
def Obligations.ResetMeetsTheInvariant : Prop := State.reset.Inv

/-- Every step keeps the invariant: memory stays in canonical form, a flight stays consistent, the sine ROM keeps the entry the
spec fixes, and ILL is 1 only in a run marked by an illegal word (R32, R55, R144, R162). -/
def Obligations.StepKeepsTheInvariant : Prop := ∀ s t : State, s.Inv → step s = .next t → t.Inv

/-- R30, R55, R147, R182: no step changes the sine ROM or what is backed with memory. -/
def Obligations.RomAndMemoryMapAreConstant : Prop :=
  ∀ s t : State, step s = .next t → t.sinRom = s.sinRom ∧ t.backed = s.backed

/-- R31, R40, in a machine with one block and one host: data memory changes only by a host write or by a `VMUL.Q15.Q16` in flight.
That there is no other bus master is the model's choice, log entry 1; R187 allows one, and the statement is false of a
platform that has it. -/
def Obligations.OnlyHostWritesAndFlightsChangeMemory : Prop :=
  ∀ s t : State, step s = .next t → t.mem ≠ s.mem →
    s.busy = true ∨ ∃ a v, s.host.head? = some (.writeMem a v)

/-- R34, R24: the host's actions take effect in its order, one a step at most, and at most one command retires a step. That
one action is one step is the model's choice: log entry 11. -/
def Obligations.EventsComeOneAtATime : Prop :=
  ∀ s t : State, step s = .next t →
    (t.host = s.host ∨ ∃ a, s.host = a :: t.host) ∧
    (s.host.head? ≠ some .reset → t.cix = s.cix ∨ t.cix = s.cix + 1)

/-- R19, R162, R192: a run that has gone wrong stays so, whatever happens, reset included, and is never final. That a reset
inside a run leaves the marks is the model's reading of "never cleared" (R162; R182 has runs without one): log entry 16. -/
def Obligations.FaultedRunIsNeverFinal : Prop :=
  ∀ s t : State, s.Inv → step s = .next t → s.faulted = true → t.faulted = true ∧ t.final = false
end

