-- ==== Sys2Proof/Laws/Decode.lean ====
section
/-! SUPPORT. The fields of an encoded word (R61), and what the decoder can answer (R62). -/

namespace Sys2Proof

/-- The bits of a format-R word, field by field. -/
theorem encodeR_toNat (op : BitVec 8) (rd ra rb rc : Reg) :
    (encodeR op rd ra rb rc).toNat =
      op.toNat * 2 ^ 24 + rd.val * 2 ^ 20 + ra.val * 2 ^ 16 + rb.val * 2 ^ 12 + rc.val * 2 ^ 8 := by
  unfold encodeR
  simp only [BitVec.toNat_append, BitVec.toNat_ofFin, BitVec.toNat_ofNat]
  have h1 := rd.isLt; have h2 := ra.isLt; have h3 := rb.isLt; have h4 := rc.isLt
  rw [← Nat.shiftLeft_add_eq_or_of_lt (b := rd.val) (by omega), ← Nat.shiftLeft_add_eq_or_of_lt (b := ra.val) (by omega),
    ← Nat.shiftLeft_add_eq_or_of_lt (b := rb.val) (by omega), ← Nat.shiftLeft_add_eq_or_of_lt (b := rc.val) (by omega),
    ← Nat.shiftLeft_add_eq_or_of_lt (by omega)]
  simp only [Nat.shiftLeft_eq]
  omega

/-- The bits of a format-I word, field by field. -/
theorem encodeI_toNat (op : BitVec 8) (rd : Reg) (imm : Half) :
    (encodeI op rd imm).toNat = op.toNat * 2 ^ 24 + rd.val * 2 ^ 20 + imm.toNat := by
  unfold encodeI
  simp only [BitVec.toNat_append, BitVec.toNat_ofFin, BitVec.toNat_ofNat]
  have h1 := rd.isLt; have h2 := imm.isLt
  rw [← Nat.shiftLeft_add_eq_or_of_lt (b := rd.val) (by omega), ← Nat.shiftLeft_add_eq_or_of_lt (by omega),
    ← Nat.shiftLeft_add_eq_or_of_lt (by omega)]
  simp only [Nat.shiftLeft_eq]
  omega

/-- A slice of a word as a number. -/
theorem slice_toNat (w : Word) (start len : Nat) : (w.extractLsb' start len).toNat = w.toNat / 2 ^ start % 2 ^ len := by
  rw [BitVec.extractLsb'_toNat, Nat.shiftRight_eq_div_pow]

theorem regField_val (w : Word) (start : Nat) : (regField w start).val = w.toNat / 2 ^ start % 16 :=
  slice_toNat w start 4

@[simp] theorem opcodeOf_encodeR (op : BitVec 8) (rd ra rb rc : Reg) : opcodeOf (encodeR op rd ra rb rc) = op := by
  apply BitVec.eq_of_toNat_eq
  rw [opcodeOf, slice_toNat, encodeR_toNat]
  have := op.isLt; have := rd.isLt; have := ra.isLt; have := rb.isLt; have := rc.isLt
  omega

@[simp] theorem opcodeOf_encodeI (op : BitVec 8) (rd : Reg) (imm : Half) : opcodeOf (encodeI op rd imm) = op := by
  apply BitVec.eq_of_toNat_eq
  rw [opcodeOf, slice_toNat, encodeI_toNat]
  have := op.isLt; have := rd.isLt; have := imm.isLt
  omega

/-- The fields the decoder reads from a format-R word. -/
@[simp] theorem fieldsOf_encodeR (op : BitVec 8) (rd ra rb rc : Reg) :
    (fieldsOf (encodeR op rd ra rb rc)).rd = rd ∧ (fieldsOf (encodeR op rd ra rb rc)).ra = ra ∧
      (fieldsOf (encodeR op rd ra rb rc)).rb = rb ∧ (fieldsOf (encodeR op rd ra rb rc)).rc = rc := by
  have := op.isLt; have := rd.isLt; have := ra.isLt; have := rb.isLt; have := rc.isLt
  refine ⟨Fin.ext ?_, Fin.ext ?_, Fin.ext ?_, Fin.ext ?_⟩ <;>
    simp only [fieldsOf, regField_val, encodeR_toNat] <;> omega

/-- The fields the decoder reads from a format-I word. -/
@[simp] theorem fieldsOf_encodeI (op : BitVec 8) (rd : Reg) (imm : Half) :
    (fieldsOf (encodeI op rd imm)).rd = rd ∧ (fieldsOf (encodeI op rd imm)).imm = imm := by
  have := op.isLt; have := rd.isLt; have := imm.isLt
  refine ⟨Fin.ext ?_, BitVec.eq_of_toNat_eq ?_⟩
  · simp only [fieldsOf, regField_val, encodeI_toNat]; omega
  · simp only [fieldsOf, slice_toNat, encodeI_toNat]; omega

/-- A format-R word under a mask written field by field: the fields the mask keeps. -/
theorem encodeR_and (op : BitVec 8) (rd ra rb rc : Reg) (mop : BitVec 8) (md ma mb mc : BitVec 4) (mz : BitVec 8) :
    encodeR op rd ra rb rc &&& (mop ++ md ++ ma ++ mb ++ mc ++ mz : BitVec 32) =
      (op &&& mop) ++ (BitVec.ofFin (w := 4) rd &&& md) ++ (BitVec.ofFin (w := 4) ra &&& ma) ++
        (BitVec.ofFin (w := 4) rb &&& mb) ++ (BitVec.ofFin (w := 4) rc &&& mc) ++ (0#8 &&& mz) := by
  unfold encodeR
  rw [← BitVec.and_append, ← BitVec.and_append, ← BitVec.and_append, ← BitVec.and_append, ← BitVec.and_append]

/-- The mask of a two-operand row keeps the opcode and finds every other field of such a word zero (R63). -/
theorem encodeR_mask2 (op : BitVec 8) (rd ra : Reg) :
    encodeR op rd ra 0 0 &&& 0xFF00FFFF = encodeR op 0 0 0 0 := by
  have h := encodeR_and op rd ra 0 0 0xFF#8 0#4 0#4 0xF#4 0xF#4 0xFF#8
  rw [show (0xFF#8 ++ 0#4 ++ 0#4 ++ 0xF#4 ++ 0xF#4 ++ 0xFF#8 : BitVec 32) = 0xFF00FFFF#32 by decide] at h
  refine h.trans ?_
  rw [show op &&& 0xFF#8 = op from BitVec.and_allOnes, BitVec.and_zero, BitVec.and_zero]
  rfl

/-- The same for a three-operand row. -/
theorem encodeR_mask3 (op : BitVec 8) (rd ra rb : Reg) :
    encodeR op rd ra rb 0 &&& 0xFF000FFF = encodeR op 0 0 0 0 := by
  have h := encodeR_and op rd ra rb 0 0xFF#8 0#4 0#4 0#4 0xF#4 0xFF#8
  rw [show (0xFF#8 ++ 0#4 ++ 0#4 ++ 0#4 ++ 0xF#4 ++ 0xFF#8 : BitVec 32) = 0xFF000FFF#32 by decide] at h
  refine h.trans ?_
  rw [show op &&& 0xFF#8 = op from BitVec.and_allOnes, BitVec.and_zero, BitVec.and_zero, BitVec.and_zero]
  rfl

/-- The same for a four-operand row. -/
theorem encodeR_mask4 (op : BitVec 8) (rd ra rb rc : Reg) :
    encodeR op rd ra rb rc &&& 0xFF0000FF = encodeR op 0 0 0 0 := by
  have h := encodeR_and op rd ra rb rc 0xFF#8 0#4 0#4 0#4 0#4 0xFF#8
  rw [show (0xFF#8 ++ 0#4 ++ 0#4 ++ 0#4 ++ 0#4 ++ 0xFF#8 : BitVec 32) = 0xFF0000FF#32 by decide] at h
  refine h.trans ?_
  rw [show op &&& 0xFF#8 = op from BitVec.and_allOnes, BitVec.and_zero, BitVec.and_zero, BitVec.and_zero,
    BitVec.and_zero]
  rfl

/-- The mask of the format-I row (R63). -/
theorem encodeI_mask (rd : Reg) (imm : Half) : encodeI 0x01 rd imm &&& 0xFF0F0000 = 0x01000000 := by
  have h : encodeI 0x01 rd imm &&& (0xFF#8 ++ 0#4 ++ 0xF#4 ++ 0#16 : BitVec 32) =
      (0x01#8 &&& 0xFF#8) ++ (BitVec.ofFin (w := 4) rd &&& 0#4) ++ (0#4 &&& 0xF#4) ++ (imm &&& 0#16) := by
    unfold encodeI
    rw [← BitVec.and_append, ← BitVec.and_append, ← BitVec.and_append]
    rfl
  rw [show (0xFF#8 ++ 0#4 ++ 0xF#4 ++ 0#16 : BitVec 32) = 0xFF0F0000#32 by decide] at h
  refine h.trans ?_
  rw [BitVec.and_zero, BitVec.and_zero]
  rfl

/-- A slice that a mask keeps whole is the pattern's slice, where the mask test passes. -/
theorem slice_of_mask {w mask pattern : Word} (h : w &&& mask = pattern) (start len : Nat)
    (hm : mask.extractLsb' start len = BitVec.allOnes len) :
    w.extractLsb' start len = pattern.extractLsb' start len := by
  rw [← h, BitVec.extractLsb'_and, hm, BitVec.and_allOnes]

/-- A word is put together again from its opcode byte and fields when its low byte is zero. -/
theorem encodeR_fields {w : Word} (h : w.extractLsb' 0 8 = 0) :
    encodeR (opcodeOf w) (regField w 20) (regField w 16) (regField w 12) (regField w 8) = w := by
  apply BitVec.eq_of_toNat_eq
  rw [encodeR_toNat, opcodeOf, slice_toNat, regField_val, regField_val, regField_val, regField_val]
  have h0 := congrArg BitVec.toNat h
  rw [slice_toNat] at h0
  have := w.isLt
  simp only [BitVec.ofNat_eq_ofNat, BitVec.toNat_ofNat] at h0
  omega

/-- A format-I word is put together again from its parts when its zero nibble is zero. -/
theorem encodeI_fields {w : Word} (h : w.extractLsb' 16 4 = 0) :
    encodeI (opcodeOf w) (regField w 20) (w.extractLsb' 0 16) = w := by
  apply BitVec.eq_of_toNat_eq
  rw [encodeI_toNat, opcodeOf, slice_toNat, slice_toNat, regField_val]
  have h0 := congrArg BitVec.toNat h
  rw [slice_toNat] at h0
  have := w.isLt
  simp only [BitVec.ofNat_eq_ofNat, BitVec.toNat_ofNat] at h0
  omega

/-- All the decoder can answer with a command: the row of the word's opcode, its mask test passed (R62). -/
theorem decodeWord_command {w : Word} {i : Instr} (h : decodeWord w = .command i) :
    ∃ row ∈ opcodeRows, row.opcode = opcodeOf w ∧ w &&& row.mask = row.pattern ∧ i = row.build (fieldsOf w) := by
  unfold decodeWord at h
  split at h
  · cases h
  · next row hrow =>
    split at h
    · next hm =>
      have hop := List.find?_some hrow
      exact ⟨row, List.mem_of_find?_eq_some hrow, by simpa using hop, hm, by simpa using h.symm⟩
    · cases h

end Sys2Proof
end

