-- ==== Sys2Proof/Laws/Memory.lean ====
section
/-! SUPPORT. The laws of data memory: every operation keeps the canonical form, a read after a write gives the value written,
a write leaves every other place alone, and two memories in canonical form that read alike are equal. -/

namespace Sys2Proof.Machine

/-! ## Canonical form -/

/-- Entries that start at `low` also start at any lower bound. -/
theorem Memory.wfFrom_mono {low low' : Nat} (h : low' ≤ low) {m : Memory} (hm : Memory.wfFrom low m = true) :
    Memory.wfFrom low' m = true := by
  cases m with
  | nil => rfl
  | cons e rest =>
    simp only [Memory.wfFrom, Bool.and_eq_true, decide_eq_true_eq] at hm ⊢
    exact ⟨⟨⟨by omega, hm.1.1.2⟩, hm.1.2⟩, hm.2⟩

/-- An address below the first entry is unlisted. -/
theorem Memory.readByte_below {low a : Nat} {m : Memory} (hm : Memory.wfFrom low m = true) (h : a < low) :
    m.readByte a = Config.unlistedByte := by
  induction m generalizing low with
  | nil => rfl
  | cons e rest ih =>
    simp only [Memory.wfFrom, Bool.and_eq_true, decide_eq_true_eq] at hm
    have hne : e.1 ≠ a := by omega
    simp only [Memory.readByte, if_neg hne]
    exact ih hm.2 (by omega)

theorem Memory.wfFrom_writeByte {low a : Nat} {m : Memory} {b : Byte} (hm : Memory.wfFrom low m = true)
    (hlow : low ≤ a) (ha : a < 131072) : Memory.wfFrom low (m.writeByte a b) = true := by
  induction m generalizing low with
  | nil =>
    unfold Memory.writeByte
    split
    · rfl
    · simp_all [Memory.wfFrom]
  | cons e rest ih =>
    obtain ⟨k, c⟩ := e
    simp only [Memory.wfFrom, Bool.and_eq_true, decide_eq_true_eq, bne_iff_ne, ne_eq] at hm
    obtain ⟨⟨⟨h1, h2⟩, h3⟩, h4⟩ := hm
    unfold Memory.writeByte
    split
    · next hk =>
      simp only [Memory.wfFrom, Bool.and_eq_true, decide_eq_true_eq, bne_iff_ne, ne_eq]
      exact ⟨⟨⟨h1, h2⟩, h3⟩, ih h4 (by omega)⟩
    · next hk =>
      split
      · next hka =>
        split
        · exact Memory.wfFrom_mono (by omega) h4
        · next hb =>
          subst hka
          simp only [Memory.wfFrom, Bool.and_eq_true, decide_eq_true_eq, bne_iff_ne, ne_eq]
          exact ⟨⟨⟨h1, h2⟩, hb⟩, h4⟩
      · next hka =>
        split
        · simp only [Memory.wfFrom, Bool.and_eq_true, decide_eq_true_eq, bne_iff_ne, ne_eq]
          exact ⟨⟨⟨h1, h2⟩, h3⟩, h4⟩
        · next hb =>
          simp only [Memory.wfFrom, Bool.and_eq_true, decide_eq_true_eq, bne_iff_ne, ne_eq]
          exact ⟨⟨⟨hlow, ha⟩, hb⟩, ⟨⟨by omega, h2⟩, h3⟩, h4⟩

/-- Writing a byte keeps the canonical form. -/
theorem Memory.wf_writeByte {m : Memory} {a : Nat} {b : Byte} (hm : m.wf = true) (ha : a < 131072) :
    (m.writeByte a b).wf = true := Memory.wfFrom_writeByte hm (Nat.zero_le a) ha

/-- Writing a word keeps the canonical form. -/
theorem Memory.wf_writeWord {m : Memory} {a v : Half} (hm : m.wf = true) : (m.writeWord a v).wf = true := by
  have := a.isLt
  exact Memory.wf_writeByte (Memory.wf_writeByte hm (by omega)) (by omega)

/-! ## Read after write -/

/-- A read after a byte write. It needs the entries to rise: a write stops at the first entry not below its address. -/
theorem Memory.readByte_writeByte_from {low : Nat} {m : Memory} (hm : Memory.wfFrom low m = true) (a a' : Nat) (b : Byte) :
    (m.writeByte a b).readByte a' = if a = a' then b else m.readByte a' := by
  induction m generalizing low with
  | nil =>
    unfold Memory.writeByte
    split
    · next hb => split <;> simp_all [Memory.readByte]
    · simp [Memory.readByte]
  | cons e rest ih =>
    obtain ⟨k, c⟩ := e
    simp only [Memory.wfFrom, Bool.and_eq_true, decide_eq_true_eq, bne_iff_ne, ne_eq] at hm
    obtain ⟨⟨⟨h1, h2⟩, h3⟩, h4⟩ := hm
    have hbelow : ∀ x, x ≤ k → Memory.readByte rest x = Config.unlistedByte :=
      fun x hx => Memory.readByte_below h4 (by omega)
    unfold Memory.writeByte
    split
    · next hk =>
      simp only [Memory.readByte, ih h4]
      split_ifs <;> first | rfl | omega
    · next hk =>
      split
      · next hka =>
        subst hka
        split
        · next hb =>
          simp only [Memory.readByte]
          split_ifs with h
          · subst h; rw [hbelow k le_rfl, hb]
          · rfl
        · simp only [Memory.readByte]
          split_ifs <;> rfl
      · next hka =>
        split
        · next hb =>
          by_cases haa : a = a'
          · subst haa
            simp only [Memory.readByte, if_neg hka, if_true]
            rw [hbelow a (by omega), hb]
          · rw [if_neg haa]
        · simp only [Memory.readByte]

/-- A read after a byte write, on memory in canonical form. -/
theorem Memory.readByte_writeByte {m : Memory} (hm : m.wf = true) (a a' : Nat) (b : Byte) :
    (m.writeByte a b).readByte a' = if a = a' then b else m.readByte a' := Memory.readByte_writeByte_from hm a a' b

/-- Each byte after a word write: the two bytes of the word, every other byte as before. -/
theorem Memory.readByte_writeWord {m : Memory} (hm : m.wf = true) (a v : Half) (k : Nat) :
    (m.writeWord a v).readByte k =
      if k = 2 * a.toNat then v.extractLsb' 0 8 else if k = 2 * a.toNat + 1 then v.extractLsb' 8 8 else m.readByte k := by
  have := a.isLt
  unfold Memory.writeWord
  rw [Memory.readByte_writeByte (Memory.wf_writeByte hm (by omega)), Memory.readByte_writeByte hm]
  split_ifs <;> first | rfl | omega

/-- The two bytes of a half-word make it up again. -/
theorem append_bytes (v : Half) : v.extractLsb' 8 8 ++ v.extractLsb' 0 8 = v := by
  refine BitVec.eq_of_getLsbD_eq fun i hi => ?_
  simp only [BitVec.getLsbD_append, BitVec.getLsbD_extractLsb']
  by_cases h : i < 8
  · simp [h]
  · have : i - 8 < 8 := by omega
    have h8 : 8 + (i - 8) = i := by omega
    simp [h, this, h8]

/-- A word read after a word write (R42). -/
theorem Memory.readWord_writeWord {m : Memory} (hm : m.wf = true) (a a' v : Half) :
    (m.writeWord a v).readWord a' = if a = a' then v else m.readWord a' := by
  unfold Memory.readWord
  rw [Memory.readByte_writeWord hm, Memory.readByte_writeWord hm]
  by_cases h : a = a'
  · subst h
    rw [if_neg (by omega), if_pos rfl, if_pos rfl, if_pos rfl]
    exact append_bytes v
  · have hne : a.toNat ≠ a'.toNat := fun he => h (BitVec.eq_of_toNat_eq he)
    rw [if_neg (by omega), if_neg (by omega), if_neg (by omega), if_neg (by omega), if_neg h]

/-! ## Extensionality -/

/-- Two memories in canonical form that read alike at every address are equal. -/
theorem Memory.ext_from {low : Nat} {m m' : Memory} (hm : Memory.wfFrom low m = true) (hm' : Memory.wfFrom low m' = true)
    (h : ∀ a, m.readByte a = m'.readByte a) : m = m' := by
  induction m generalizing low m' with
  | nil =>
    cases m' with
    | nil => rfl
    | cons e' rest' =>
      obtain ⟨k', c'⟩ := e'
      simp only [Memory.wfFrom, Bool.and_eq_true, decide_eq_true_eq, bne_iff_ne, ne_eq] at hm'
      have := h k'
      simp only [Memory.readByte, if_true] at this
      exact absurd this.symm hm'.1.2
  | cons e rest ih =>
    obtain ⟨k, c⟩ := e
    cases m' with
    | nil =>
      simp only [Memory.wfFrom, Bool.and_eq_true, decide_eq_true_eq, bne_iff_ne, ne_eq] at hm
      have := h k
      simp only [Memory.readByte, if_true] at this
      exact absurd this hm.1.2
    | cons e' rest' =>
      obtain ⟨k', c'⟩ := e'
      have hm2 := hm
      have hm2' := hm'
      simp only [Memory.wfFrom, Bool.and_eq_true, decide_eq_true_eq, bne_iff_ne, ne_eq] at hm2 hm2'
      have hk : k = k' := by
        by_contra hne
        rcases Nat.lt_or_gt_of_ne hne with hlt | hlt
        · have := h k
          rw [Memory.readByte, if_pos rfl, Memory.readByte, if_neg (by omega),
            Memory.readByte_below hm2'.2 (by omega)] at this
          exact hm2.1.2 this
        · have := h k'
          rw [Memory.readByte, if_neg (by omega), Memory.readByte_below hm2.2 (by omega), Memory.readByte,
            if_pos rfl] at this
          exact hm2'.1.2 this.symm
      subst hk
      have hc : c = c' := by simpa [Memory.readByte] using h k
      subst hc
      have hrest : rest = rest' := by
        refine ih hm2.2 hm2'.2 fun a => ?_
        by_cases hak : a ≤ k
        · rw [Memory.readByte_below hm2.2 (by omega), Memory.readByte_below hm2'.2 (by omega)]
        · have hne : k ≠ a := by omega
          simpa [Memory.readByte, hne] using h a
      rw [hrest]

/-- Two memories in canonical form that read alike at every byte are equal. -/
theorem Memory.ext_of_wf {m m' : Memory} (hm : m.wf = true) (hm' : m'.wf = true)
    (h : ∀ a, m.readByte a = m'.readByte a) : m = m' := Memory.ext_from hm hm' h

/-- Writes of two different words commute. -/
theorem Memory.writeWord_comm {m : Memory} (hm : m.wf = true) {a a' : Half} (v v' : Half) (h : a ≠ a') :
    (m.writeWord a v).writeWord a' v' = (m.writeWord a' v').writeWord a v := by
  have hne : a.toNat ≠ a'.toNat := fun he => h (BitVec.eq_of_toNat_eq he)
  refine Memory.ext_of_wf (Memory.wf_writeWord (Memory.wf_writeWord hm)) (Memory.wf_writeWord (Memory.wf_writeWord hm))
    fun k => ?_
  simp only [Memory.readByte_writeWord (Memory.wf_writeWord hm), Memory.readByte_writeWord hm]
  split_ifs <;> first | rfl | omega

/-! ## The memory port -/

/-- All `memRead` can do. -/
theorem memRead_cases {s : State} {a : Half} {r : Except Fault Half} (h : memRead s a = r) :
    (s.memValid a = true ∧ r = .ok (s.mem.readWord a)) ∨ (s.memValid a = false ∧ r = .error (.unbackedAccess a s.marks)) := by
  subst h
  unfold memRead
  cases s.memValid a <;> simp

/-- All `memWrite` can do. -/
theorem memWrite_cases {s : State} {a v : Half} {r : Except Fault State} (h : memWrite s a v = r) :
    (s.memValid a = true ∧ r = .ok { s with mem := s.mem.writeWord a v }) ∨
      (s.memValid a = false ∧ r = .error (.unbackedAccess a s.marks)) := by
  subst h
  unfold memWrite
  cases s.memValid a <;> simp

end Sys2Proof.Machine
end

