-- ==== Sys2Proof/Laws/Operands.lean ====
section
/-! SUPPORT. The laws of the readings, cuts and halves of patterns: what the provers cite instead of unfolding them. -/

namespace Sys2Proof.Machine

/-! ## Readings (R14) -/

theorem unsigned_nonneg {n : Nat} (v : BitVec n) : 0 ≤ unsigned v := Int.natCast_nonneg _

theorem unsigned_lt {n : Nat} (v : BitVec n) : unsigned v < 2 ^ n := by
  have := v.isLt
  unfold unsigned
  exact_mod_cast this

theorem signed16_bounds (v : Half) : -32768 ≤ signed v ∧ signed v < 32768 := by
  have h1 := BitVec.toInt_lt (x := v)
  have h2 := BitVec.le_toInt (x := v)
  unfold signed
  norm_num at h1 h2
  omega

theorem unsigned16_bounds (v : Half) : 0 ≤ unsigned v ∧ unsigned v < 65536 := by
  refine ⟨unsigned_nonneg v, ?_⟩
  simpa using unsigned_lt v

theorem unsigned8_bounds (v : BitVec 8) : 0 ≤ unsigned v ∧ unsigned v < 256 := by
  refine ⟨unsigned_nonneg v, ?_⟩
  simpa using unsigned_lt v

theorem unsigned32_bounds (v : Word) : 0 ≤ unsigned v ∧ unsigned v < 4294967296 := by
  refine ⟨unsigned_nonneg v, ?_⟩
  simpa using unsigned_lt v

/-! ## Floor division (R15) -/

theorem floorDiv_eq_ediv (a : Int) {b : Int} (hb : 0 ≤ b) : floorDiv a b = a / b := Int.fdiv_eq_ediv_of_nonneg a hb

/-- Floor division by a positive number: the greatest multiple not above (R15, R113). -/
theorem floorDiv_bounds (a : Int) {b : Int} (hb : 0 < b) : floorDiv a b * b ≤ a ∧ a < (floorDiv a b + 1) * b := by
  rw [floorDiv_eq_ediv a hb.le]
  exact ⟨Int.ediv_mul_le a hb.ne', Int.lt_ediv_add_one_mul_self a hb⟩

/-! ## Cutting (R15): a value in range is not changed by `wrap` -/

theorem signed_wrap16 {z : Int} (h1 : -32768 ≤ z) (h2 : z < 32768) : signed (wrap 16 z) = z := by
  unfold signed wrap
  rw [BitVec.toInt_ofInt]
  exact Int.bmod_eq_of_le (by norm_num; omega) (by norm_num; omega)

theorem unsigned_wrap16 {z : Int} (h1 : 0 ≤ z) (h2 : z < 65536) : unsigned (wrap 16 z) = z := by
  unfold unsigned wrap
  rw [BitVec.toNat_ofInt]
  norm_num
  omega

theorem unsigned_wrap32 {z : Int} (h1 : 0 ≤ z) (h2 : z < 4294967296) : unsigned (wrap 32 z) = z := by
  unfold unsigned wrap
  rw [BitVec.toNat_ofInt]
  norm_num
  omega

theorem wrap_signed {n : Nat} (v : BitVec n) : wrap n (signed v) = v := BitVec.ofInt_toInt

theorem wrap_unsigned {n : Nat} (v : BitVec n) : wrap n (unsigned v) = v := by
  unfold wrap unsigned
  rw [BitVec.ofInt_natCast, BitVec.ofNat_toNat, BitVec.setWidth_eq]

/-! ## Halves (R11) -/

theorem lowHalf_eq_setWidth (p : Word) : lowHalf p = p.setWidth 16 := by
  refine BitVec.eq_of_getLsbD_eq fun i hi => ?_
  simp [lowHalf, hi]

theorem highHalf_eq_shift (p : Word) : highHalf p = (p >>> 16).setWidth 16 := by
  refine BitVec.eq_of_getLsbD_eq fun i hi => ?_
  simp [highHalf, hi]

theorem zext32_eq_append (v : Half) : zext32 v = 0#16 ++ v := by
  refine BitVec.eq_of_getLsbD_eq fun i hi => ?_
  simp only [zext32, BitVec.getLsbD_setWidth, BitVec.getLsbD_append, BitVec.getLsbD_zero]
  by_cases h : i < 16
  · simp [h]; omega
  · simp [h, BitVec.getLsbD_of_ge v i (by omega)]

@[simp] theorem lowHalf_append (a b : Half) : lowHalf (a ++ b) = b := by
  refine BitVec.eq_of_getLsbD_eq fun i hi => ?_
  rw [lowHalf, BitVec.getLsbD_extractLsb', Nat.zero_add]
  change (decide (i < 16) && (a ++ b : BitVec (16 + 16)).getLsbD i) = b.getLsbD i
  simp only [BitVec.getLsbD_append, hi, decide_true, Bool.true_and, if_true]

@[simp] theorem highHalf_append (a b : Half) : highHalf (a ++ b) = a := by
  refine BitVec.eq_of_getLsbD_eq fun i hi => ?_
  rw [highHalf, BitVec.getLsbD_extractLsb']
  change (decide (i < 16) && (a ++ b : BitVec (16 + 16)).getLsbD (16 + i)) = a.getLsbD i
  have h : ¬16 + i < 16 := by omega
  simp only [BitVec.getLsbD_append, hi, h, decide_true, Bool.true_and, if_false, Nat.add_sub_cancel_left]

@[simp] theorem lowHalf_zext32 (v : Half) : lowHalf (zext32 v) = v := by
  rw [zext32_eq_append, lowHalf_append]

@[simp] theorem highHalf_zext32 (v : Half) : highHalf (zext32 v) = 0 := by
  rw [zext32_eq_append, highHalf_append]; rfl

/-- A 32-bit pattern is its two halves (R11). -/
@[simp] theorem highHalf_append_lowHalf (p : Word) : highHalf p ++ lowHalf p = p := by
  refine BitVec.eq_of_getLsbD_eq fun i hi => ?_
  simp only [BitVec.getLsbD_append, highHalf, lowHalf, BitVec.getLsbD_extractLsb']
  by_cases h : i < 16
  · simp [h]
  · have h1 : i - 16 < 16 := by omega
    have h2 : 16 + (i - 16) = i := by omega
    simp [h, h1, h2]

/-- Reading both halves as numbers (R11). -/
theorem unsigned_halves (p : Word) : unsigned p = unsigned (highHalf p) * 65536 + unsigned (lowHalf p) := by
  unfold unsigned highHalf lowHalf
  simp only [BitVec.extractLsb'_toNat, Nat.shiftRight_eq_div_pow]
  have := p.isLt
  omega

/-! ## Sequence addresses (R41, R45) -/

theorem seqAddr_toNat (b : Half) (i : Nat) : (seqAddr b i).toNat = (b.toNat + i) % 65536 := by
  unfold seqAddr
  rw [BitVec.toNat_add, BitVec.toNat_ofNat]
  omega

/-- Two elements of one sequence of at most 65536 elements stand in different words. -/
theorem seqAddr_inj {b : Half} {i j : Nat} (hi : i < 65536) (hj : j < 65536) (h : seqAddr b i = seqAddr b j) : i = j := by
  have := congrArg BitVec.toNat h
  rw [seqAddr_toNat, seqAddr_toNat] at this
  have := b.isLt
  omega

end Sys2Proof.Machine
end

