-- ==== Sys2Proof/Laws/State.lean ====
section
/-! SUPPORT. One lemma per field of State and per update, true by rfl, so that no later proof unfolds a record update; and what
the register accessors read after a register write. -/

namespace Sys2Proof.Machine

variable (s : State)

/-! ### noteReads -/

@[simp] theorem State.noteReads_regs (rs : List Reg) : (s.noteReads rs).regs = s.regs := rfl
@[simp] theorem State.noteReads_written (rs : List Reg) : (s.noteReads rs).written = s.written := rfl
@[simp] theorem State.noteReads_ill (rs : List Reg) : (s.noteReads rs).ill = s.ill := rfl
@[simp] theorem State.noteReads_vmul (rs : List Reg) : (s.noteReads rs).vmul = s.vmul := rfl
@[simp] theorem State.noteReads_sinRom (rs : List Reg) : (s.noteReads rs).sinRom = s.sinRom := rfl
@[simp] theorem State.noteReads_mem (rs : List Reg) : (s.noteReads rs).mem = s.mem := rfl
@[simp] theorem State.noteReads_backed (rs : List Reg) : (s.noteReads rs).backed = s.backed := rfl
@[simp] theorem State.noteReads_cix (rs : List Reg) : (s.noteReads rs).cix = s.cix := rfl
@[simp] theorem State.noteReads_marks (rs : List Reg) : (s.noteReads rs).marks = { s.marks with unwrittenRead := s.marks.unwrittenRead || s.anyUnwritten rs } := rfl
@[simp] theorem State.noteReads_host (rs : List Reg) : (s.noteReads rs).host = s.host := rfl
@[simp] theorem State.noteReads_answers (rs : List Reg) : (s.noteReads rs).answers = s.answers := rfl
@[simp] theorem State.noteReads_free (rs : List Reg) : (s.noteReads rs).free = s.free := rfl

/-! ### noteZeroDenominator -/

@[simp] theorem State.noteZeroDenominator_regs (rs : List Reg) : (s.noteZeroDenominator rs).regs = s.regs := rfl
@[simp] theorem State.noteZeroDenominator_written (rs : List Reg) : (s.noteZeroDenominator rs).written = s.written := rfl
@[simp] theorem State.noteZeroDenominator_ill (rs : List Reg) : (s.noteZeroDenominator rs).ill = s.ill := rfl
@[simp] theorem State.noteZeroDenominator_vmul (rs : List Reg) : (s.noteZeroDenominator rs).vmul = s.vmul := rfl
@[simp] theorem State.noteZeroDenominator_sinRom (rs : List Reg) : (s.noteZeroDenominator rs).sinRom = s.sinRom := rfl
@[simp] theorem State.noteZeroDenominator_mem (rs : List Reg) : (s.noteZeroDenominator rs).mem = s.mem := rfl
@[simp] theorem State.noteZeroDenominator_backed (rs : List Reg) : (s.noteZeroDenominator rs).backed = s.backed := rfl
@[simp] theorem State.noteZeroDenominator_cix (rs : List Reg) : (s.noteZeroDenominator rs).cix = s.cix := rfl
@[simp] theorem State.noteZeroDenominator_marks (rs : List Reg) : (s.noteZeroDenominator rs).marks = { s.marks with zeroDenominator := s.marks.zeroDenominator || !s.anyUnwritten rs } := rfl
@[simp] theorem State.noteZeroDenominator_host (rs : List Reg) : (s.noteZeroDenominator rs).host = s.host := rfl
@[simp] theorem State.noteZeroDenominator_answers (rs : List Reg) : (s.noteZeroDenominator rs).answers = s.answers := rfl
@[simp] theorem State.noteZeroDenominator_free (rs : List Reg) : (s.noteZeroDenominator rs).free = s.free := rfl

/-! ### noteZeroLength -/

@[simp] theorem State.noteZeroLength_regs (rs : List Reg) : (s.noteZeroLength rs).regs = s.regs := rfl
@[simp] theorem State.noteZeroLength_written (rs : List Reg) : (s.noteZeroLength rs).written = s.written := rfl
@[simp] theorem State.noteZeroLength_ill (rs : List Reg) : (s.noteZeroLength rs).ill = s.ill := rfl
@[simp] theorem State.noteZeroLength_vmul (rs : List Reg) : (s.noteZeroLength rs).vmul = s.vmul := rfl
@[simp] theorem State.noteZeroLength_sinRom (rs : List Reg) : (s.noteZeroLength rs).sinRom = s.sinRom := rfl
@[simp] theorem State.noteZeroLength_mem (rs : List Reg) : (s.noteZeroLength rs).mem = s.mem := rfl
@[simp] theorem State.noteZeroLength_backed (rs : List Reg) : (s.noteZeroLength rs).backed = s.backed := rfl
@[simp] theorem State.noteZeroLength_cix (rs : List Reg) : (s.noteZeroLength rs).cix = s.cix := rfl
@[simp] theorem State.noteZeroLength_marks (rs : List Reg) : (s.noteZeroLength rs).marks = { s.marks with zeroLength := s.marks.zeroLength || !s.anyUnwritten rs } := rfl
@[simp] theorem State.noteZeroLength_host (rs : List Reg) : (s.noteZeroLength rs).host = s.host := rfl
@[simp] theorem State.noteZeroLength_answers (rs : List Reg) : (s.noteZeroLength rs).answers = s.answers := rfl
@[simp] theorem State.noteZeroLength_free (rs : List Reg) : (s.noteZeroLength rs).free = s.free := rfl

/-! ### setReg -/

@[simp] theorem State.setReg_regs (r : Reg) (v : Word) : (s.setReg r v).regs = s.regs.set r.val v := rfl
@[simp] theorem State.setReg_written (r : Reg) (v : Word) : (s.setReg r v).written = s.written.set r.val true := rfl
@[simp] theorem State.setReg_ill (r : Reg) (v : Word) : (s.setReg r v).ill = s.ill := rfl
@[simp] theorem State.setReg_vmul (r : Reg) (v : Word) : (s.setReg r v).vmul = s.vmul := rfl
@[simp] theorem State.setReg_sinRom (r : Reg) (v : Word) : (s.setReg r v).sinRom = s.sinRom := rfl
@[simp] theorem State.setReg_mem (r : Reg) (v : Word) : (s.setReg r v).mem = s.mem := rfl
@[simp] theorem State.setReg_backed (r : Reg) (v : Word) : (s.setReg r v).backed = s.backed := rfl
@[simp] theorem State.setReg_cix (r : Reg) (v : Word) : (s.setReg r v).cix = s.cix := rfl
@[simp] theorem State.setReg_marks (r : Reg) (v : Word) : (s.setReg r v).marks = s.marks := rfl
@[simp] theorem State.setReg_host (r : Reg) (v : Word) : (s.setReg r v).host = s.host := rfl
@[simp] theorem State.setReg_answers (r : Reg) (v : Word) : (s.setReg r v).answers = s.answers := rfl
@[simp] theorem State.setReg_free (r : Reg) (v : Word) : (s.setReg r v).free = s.free := rfl

/-! ### retire -/

@[simp] theorem State.retire_regs : (s.retire).regs = s.regs := rfl
@[simp] theorem State.retire_written : (s.retire).written = s.written := rfl
@[simp] theorem State.retire_ill : (s.retire).ill = s.ill := rfl
@[simp] theorem State.retire_vmul : (s.retire).vmul = s.vmul := rfl
@[simp] theorem State.retire_sinRom : (s.retire).sinRom = s.sinRom := rfl
@[simp] theorem State.retire_mem : (s.retire).mem = s.mem := rfl
@[simp] theorem State.retire_backed : (s.retire).backed = s.backed := rfl
@[simp] theorem State.retire_cix : (s.retire).cix = s.cix + 1 := rfl
@[simp] theorem State.retire_marks : (s.retire).marks = s.marks := rfl
@[simp] theorem State.retire_host : (s.retire).host = s.host := rfl
@[simp] theorem State.retire_answers : (s.retire).answers = s.answers := rfl
@[simp] theorem State.retire_free : (s.retire).free = s.free := rfl

/-! ### useFree -/

@[simp] theorem State.useFree_regs : (s.useFree).regs = s.regs := rfl
@[simp] theorem State.useFree_written : (s.useFree).written = s.written := rfl
@[simp] theorem State.useFree_ill : (s.useFree).ill = s.ill := rfl
@[simp] theorem State.useFree_vmul : (s.useFree).vmul = s.vmul := rfl
@[simp] theorem State.useFree_sinRom : (s.useFree).sinRom = s.sinRom := rfl
@[simp] theorem State.useFree_mem : (s.useFree).mem = s.mem := rfl
@[simp] theorem State.useFree_backed : (s.useFree).backed = s.backed := rfl
@[simp] theorem State.useFree_cix : (s.useFree).cix = s.cix := rfl
@[simp] theorem State.useFree_marks : (s.useFree).marks = s.marks := rfl
@[simp] theorem State.useFree_host : (s.useFree).host = s.host := rfl
@[simp] theorem State.useFree_answers : (s.useFree).answers = s.answers := rfl
@[simp] theorem State.useFree_free : (s.useFree).free = s.free + 1 := rfl

/-! ### raiseIllegal -/

@[simp] theorem State.raiseIllegal_regs : (s.raiseIllegal).regs = s.regs := rfl
@[simp] theorem State.raiseIllegal_written : (s.raiseIllegal).written = s.written := rfl
@[simp] theorem State.raiseIllegal_ill : (s.raiseIllegal).ill = true := rfl
@[simp] theorem State.raiseIllegal_vmul : (s.raiseIllegal).vmul = s.vmul := rfl
@[simp] theorem State.raiseIllegal_sinRom : (s.raiseIllegal).sinRom = s.sinRom := rfl
@[simp] theorem State.raiseIllegal_mem : (s.raiseIllegal).mem = s.mem := rfl
@[simp] theorem State.raiseIllegal_backed : (s.raiseIllegal).backed = s.backed := rfl
@[simp] theorem State.raiseIllegal_cix : (s.raiseIllegal).cix = s.cix + 1 := rfl
@[simp] theorem State.raiseIllegal_marks : (s.raiseIllegal).marks = { s.marks with illegalWord := true } := rfl
@[simp] theorem State.raiseIllegal_host : (s.raiseIllegal).host = s.host := rfl
@[simp] theorem State.raiseIllegal_answers : (s.raiseIllegal).answers = s.answers := rfl
@[simp] theorem State.raiseIllegal_free : (s.raiseIllegal).free = s.free := rfl

/-! ### complete -/

@[simp] theorem State.complete_regs (rs : List Reg) (rd : Reg) (v : Word) : (s.complete rs rd v).regs = s.regs.set rd.val v := rfl
@[simp] theorem State.complete_written (rs : List Reg) (rd : Reg) (v : Word) : (s.complete rs rd v).written = s.written.set rd.val true := rfl
@[simp] theorem State.complete_ill (rs : List Reg) (rd : Reg) (v : Word) : (s.complete rs rd v).ill = s.ill := rfl
@[simp] theorem State.complete_vmul (rs : List Reg) (rd : Reg) (v : Word) : (s.complete rs rd v).vmul = s.vmul := rfl
@[simp] theorem State.complete_sinRom (rs : List Reg) (rd : Reg) (v : Word) : (s.complete rs rd v).sinRom = s.sinRom := rfl
@[simp] theorem State.complete_mem (rs : List Reg) (rd : Reg) (v : Word) : (s.complete rs rd v).mem = s.mem := rfl
@[simp] theorem State.complete_backed (rs : List Reg) (rd : Reg) (v : Word) : (s.complete rs rd v).backed = s.backed := rfl
@[simp] theorem State.complete_cix (rs : List Reg) (rd : Reg) (v : Word) : (s.complete rs rd v).cix = s.cix + 1 := rfl
@[simp] theorem State.complete_marks (rs : List Reg) (rd : Reg) (v : Word) : (s.complete rs rd v).marks = { s.marks with unwrittenRead := s.marks.unwrittenRead || s.anyUnwritten rs } := rfl
@[simp] theorem State.complete_host (rs : List Reg) (rd : Reg) (v : Word) : (s.complete rs rd v).host = s.host := rfl
@[simp] theorem State.complete_answers (rs : List Reg) (rd : Reg) (v : Word) : (s.complete rs rd v).answers = s.answers := rfl
@[simp] theorem State.complete_free (rs : List Reg) (rd : Reg) (v : Word) : (s.complete rs rd v).free = s.free := rfl

/-! ### complete16 -/

@[simp] theorem State.complete16_regs (rs : List Reg) (rd : Reg) (v : Half) : (s.complete16 rs rd v).regs = s.regs.set rd.val (zext32 v) := rfl
@[simp] theorem State.complete16_written (rs : List Reg) (rd : Reg) (v : Half) : (s.complete16 rs rd v).written = s.written.set rd.val true := rfl
@[simp] theorem State.complete16_ill (rs : List Reg) (rd : Reg) (v : Half) : (s.complete16 rs rd v).ill = s.ill := rfl
@[simp] theorem State.complete16_vmul (rs : List Reg) (rd : Reg) (v : Half) : (s.complete16 rs rd v).vmul = s.vmul := rfl
@[simp] theorem State.complete16_sinRom (rs : List Reg) (rd : Reg) (v : Half) : (s.complete16 rs rd v).sinRom = s.sinRom := rfl
@[simp] theorem State.complete16_mem (rs : List Reg) (rd : Reg) (v : Half) : (s.complete16 rs rd v).mem = s.mem := rfl
@[simp] theorem State.complete16_backed (rs : List Reg) (rd : Reg) (v : Half) : (s.complete16 rs rd v).backed = s.backed := rfl
@[simp] theorem State.complete16_cix (rs : List Reg) (rd : Reg) (v : Half) : (s.complete16 rs rd v).cix = s.cix + 1 := rfl
@[simp] theorem State.complete16_marks (rs : List Reg) (rd : Reg) (v : Half) : (s.complete16 rs rd v).marks = { s.marks with unwrittenRead := s.marks.unwrittenRead || s.anyUnwritten rs } := rfl
@[simp] theorem State.complete16_host (rs : List Reg) (rd : Reg) (v : Half) : (s.complete16 rs rd v).host = s.host := rfl
@[simp] theorem State.complete16_answers (rs : List Reg) (rd : Reg) (v : Half) : (s.complete16 rs rd v).answers = s.answers := rfl
@[simp] theorem State.complete16_free (rs : List Reg) (rd : Reg) (v : Half) : (s.complete16 rs rd v).free = s.free := rfl

/-! ### applyReset -/

@[simp] theorem State.applyReset_regs : (s.applyReset).regs = State.reset.regs := rfl
@[simp] theorem State.applyReset_written : (s.applyReset).written = State.reset.written := rfl
@[simp] theorem State.applyReset_ill : (s.applyReset).ill = false := rfl
@[simp] theorem State.applyReset_vmul : (s.applyReset).vmul = none := rfl
@[simp] theorem State.applyReset_sinRom : (s.applyReset).sinRom = s.sinRom := rfl
@[simp] theorem State.applyReset_mem : (s.applyReset).mem = s.mem := rfl
@[simp] theorem State.applyReset_backed : (s.applyReset).backed = s.backed := rfl
@[simp] theorem State.applyReset_cix : (s.applyReset).cix = 0 := rfl
@[simp] theorem State.applyReset_marks : (s.applyReset).marks = s.marks := rfl
@[simp] theorem State.applyReset_host : (s.applyReset).host = s.host := rfl
@[simp] theorem State.applyReset_answers : (s.applyReset).answers = s.answers := rfl
@[simp] theorem State.applyReset_free : (s.applyReset).free = s.free := rfl

/-! ### Registers after a write -/

theorem State.setReg_x (r q : Reg) (v : Word) : (s.setReg r v).x q = if r = q then v else s.x q := by
  simp only [State.x, State.setReg_regs, Vector.getElem_set, Fin.ext_iff]

theorem State.setReg_isWritten (r q : Reg) (v : Word) :
    (s.setReg r v).isWritten q = if r = q then true else s.isWritten q := by
  simp only [State.isWritten, State.setReg_written, Vector.getElem_set, Fin.ext_iff]

@[simp] theorem State.noteReads_x (rs : List Reg) (q : Reg) : (s.noteReads rs).x q = s.x q := rfl
@[simp] theorem State.noteReads_isWritten (rs : List Reg) (q : Reg) : (s.noteReads rs).isWritten q = s.isWritten q := rfl
@[simp] theorem State.noteReads_anyUnwritten (rs qs : List Reg) : (s.noteReads rs).anyUnwritten qs = s.anyUnwritten qs := rfl
@[simp] theorem State.useFree_anyUnwritten (qs : List Reg) : s.useFree.anyUnwritten qs = s.anyUnwritten qs := rfl
@[simp] theorem State.noteZeroDenominator_x (rs : List Reg) (q : Reg) : (s.noteZeroDenominator rs).x q = s.x q := rfl
@[simp] theorem State.noteZeroLength_x (rs : List Reg) (q : Reg) : (s.noteZeroLength rs).x q = s.x q := rfl
@[simp] theorem State.retire_x (q : Reg) : s.retire.x q = s.x q := rfl
@[simp] theorem State.useFree_x (q : Reg) : s.useFree.x q = s.x q := rfl

/-- What a register reads after a command has completed: the result in `rd`, every other register as before. -/
theorem State.complete_x (rs : List Reg) (rd q : Reg) (v : Word) :
    (s.complete rs rd v).x q = if rd = q then v else s.x q := (s.noteReads rs).setReg_x rd q v

@[simp] theorem State.complete_x_self (rs : List Reg) (rd : Reg) (v : Word) : (s.complete rs rd v).x rd = v := by
  simp [State.complete_x]

theorem State.complete16_x (rs : List Reg) (rd q : Reg) (v : Half) :
    (s.complete16 rs rd v).x q = if rd = q then zext32 v else s.x q := s.complete_x rs rd q (zext32 v)

@[simp] theorem State.complete16_x_self (rs : List Reg) (rd : Reg) (v : Half) :
    (s.complete16 rs rd v).x rd = zext32 v := by simp [State.complete16_x]

theorem State.complete_isWritten (rs : List Reg) (rd q : Reg) (v : Word) :
    (s.complete rs rd v).isWritten q = if rd = q then true else s.isWritten q :=
  (s.noteReads rs).setReg_isWritten rd q v

/-! ### Never-written sources -/

/-- No source was never written exactly when every one has been written (R23). -/
theorem State.anyUnwritten_eq_false (rs : List Reg) : s.anyUnwritten rs = false ↔ ∀ r ∈ rs, s.isWritten r = true := by
  simp [State.anyUnwritten]

/-- A command whose sources are all written notes nothing. -/
theorem State.noteReads_marks_of_written (rs : List Reg) (h : ∀ r ∈ rs, s.isWritten r = true) :
    (s.noteReads rs).marks = s.marks := by
  rw [State.noteReads_marks, (s.anyUnwritten_eq_false rs).mpr h, Bool.or_false]

/-! ### BUSY after an update that leaves the flight alone -/

@[simp] theorem State.noteReads_busy (rs : List Reg) : (s.noteReads rs).busy = s.busy := rfl
@[simp] theorem State.setReg_busy (r : Reg) (v : Word) : (s.setReg r v).busy = s.busy := rfl
@[simp] theorem State.retire_busy : s.retire.busy = s.busy := rfl
@[simp] theorem State.raiseIllegal_busy : s.raiseIllegal.busy = s.busy := rfl
@[simp] theorem State.applyReset_busy : s.applyReset.busy = false := rfl

theorem State.busy_iff : s.busy = true ↔ ∃ v, s.vmul = some v := by
  simp [State.busy, Option.isSome_iff_exists]

end Sys2Proof.Machine
end

