-- ==== Sys2Proof/Laws/Events.lean ====
section
/-! SUPPORT. What a meaning, an access of a flight, a host action and a step can do, said once each: the lemmas the provers cite
instead of unfolding them. -/

namespace Sys2Proof.Machine

/-! ## The meanings -/

/-- Everything a register-writing command can answer with a next state: its completion on the state it started from, or, for
a division by zero, on that state with row 2 noted and one free value used (R80, R122). -/
theorem exec_next_of_dest {i : Instr} {s t : State} {rd : Reg} (hd : i.dest = some rd) (h : exec i s = .next t) :
    ∃ v, t = s.complete i.sources rd v ∨
      t = (s.useFree.noteZeroDenominator i.sources).complete i.sources rd v := by
  cases i
  case vmulQ15Q16 => cases hd
  case divQ16Q16 _ ra rb =>
    cases hd
    simp only [exec, execDivQ16Q16] at h
    split at h
    · exact ⟨_, .inr (by cases h; rfl)⟩
    · exact ⟨_, .inl (by cases h; rfl)⟩
  case lutQ15 _ ra rb =>
    cases hd
    simp only [exec, execLutQ15] at h
    split at h
    · cases h
    · split at h
      · cases h
      · exact ⟨_, .inl (by cases h; rfl)⟩
  all_goals
    cases hd
    exact ⟨_, .inl (by cases h; rfl)⟩

/-- Everything a vector multiply can answer: a started flight whose operands are the latched ones, nothing fetched yet (R114,
R115). -/
theorem execVmul_next (rd ra rb rc : Reg) (s : State) :
    ∃ v : VmulFlight, ∃ m n,
      exec (.vmulQ15Q16 rd ra rb rc) s = .next { s with marks := m, free := n, vmul := some v } ∧
      v.dst = s.xlo rd ∧ v.src = s.xlo ra ∧ v.scalar = s.xlo rb ∧ v.len = s.xlo rc ∧ v.index = 0 ∧ v.fetched = none ∧
      (v.len ≠ 0 → v.count = v.len.toNat) := by
  simp only [exec, execVmulQ15Q16]
  split
  · next h0 => exact ⟨_, _, _, rfl, rfl, rfl, rfl, rfl, rfl, rfl, fun h => absurd h0 h⟩
  · exact ⟨_, _, _, rfl, rfl, rfl, rfl, rfl, rfl, rfl, fun _ => rfl⟩

/-- No command is refused. -/
theorem exec_not_refused (i : Instr) (s : State) (r : Refusal) : exec i s ≠ .refused r := by
  cases i
  case vmulQ15Q16 =>
    simp only [exec, execVmulQ15Q16]
    split <;> exact fun h => by cases h
  case divQ16Q16 =>
    simp only [exec, execDivQ16Q16]
    split <;> exact fun h => by cases h
  case lutQ15 =>
    simp only [exec, execLutQ15]
    split
    · exact fun h => by cases h
    · split <;> exact fun h => by cases h
  all_goals exact fun h => by cases h

/-! ## The block's own step -/

/-- All one access of a flight can do with a next state: the write of the element read, the read of the next element, or the
end of the command (R47, R37). -/
theorem vmulAccess_next {v : VmulFlight} {s t : State} (h : vmulAccess v s = .next t) :
    (∃ e, v.fetched = some e ∧ s.memValid (seqAddr v.dst v.index) = true ∧
      t = { s with mem := s.mem.writeWord (seqAddr v.dst v.index) (mulq15q16 e v.scalar),
                   vmul := some { v with index := v.index + 1, fetched := none } }) ∨
    (v.fetched = none ∧ v.index < v.count ∧ s.memValid (seqAddr v.src v.index) = true ∧
      t = { s with vmul := some { v with fetched := some (s.mem.readWord (seqAddr v.src v.index)) } }) ∨
    (v.fetched = none ∧ v.count ≤ v.index ∧ t = { s with vmul := none, cix := s.cix + 1 }) := by
  unfold vmulAccess at h
  split at h
  · next e he =>
    split at h
    · next s' hw =>
      rcases memWrite_cases hw with ⟨hv, hr⟩ | ⟨_, hr⟩
      · cases hr; cases h; exact .inl ⟨e, he, hv, rfl⟩
      · cases hr
    · cases h
  · next he =>
    split at h
    · next hlt =>
      split at h
      · next e hr =>
        rcases memRead_cases hr with ⟨hv, hr⟩ | ⟨_, hr⟩
        · cases hr; cases h; exact .inr (.inl ⟨he, hlt, hv, rfl⟩)
        · cases hr
      · cases h
    · next hge => cases h; exact .inr (.inr ⟨he, Nat.le_of_not_lt hge, rfl⟩)

/-- The read access of a flight (R47). -/
theorem vmulAccess_read {v : VmulFlight} {s : State} (hf : v.fetched = none) (hi : v.index < v.count)
    (hv : s.memValid (seqAddr v.src v.index) = true) :
    vmulAccess v s =
      .next { s with vmul := some { v with fetched := some (s.mem.readWord (seqAddr v.src v.index)) } } := by
  simp [vmulAccess, hf, hi, memRead, hv]

/-- The write access of a flight (R47). -/
theorem vmulAccess_write {v : VmulFlight} {s : State} {e : Half} (hf : v.fetched = some e)
    (hv : s.memValid (seqAddr v.dst v.index) = true) :
    vmulAccess v s =
      .next { s with mem := s.mem.writeWord (seqAddr v.dst v.index) (mulq15q16 e v.scalar),
                     vmul := some { v with index := v.index + 1, fetched := none } } := by
  simp [vmulAccess, hf, memWrite, hv]

/-- The end of a flight (R27, R37). -/
theorem vmulAccess_end {v : VmulFlight} {s : State} (hf : v.fetched = none) (hi : v.count ≤ v.index) :
    vmulAccess v s = .next { s with vmul := none, cix := s.cix + 1 } := by
  simp [vmulAccess, hf, Nat.not_lt.mpr hi, State.retire]

/-- All the block's own step can do with a next state. -/
theorem blockStep_next {s t : State} (h : blockStep s = .next t) :
    (s.vmul = none ∧ t = s) ∨ ∃ v, s.vmul = some v ∧ vmulAccess v s = .next t := by
  unfold blockStep at h
  split at h
  · next v hv => exact .inr ⟨v, hv, h⟩
  · next hv => cases h; exact .inl ⟨hv, rfl⟩

/-- The block's own step changes neither registers nor ILL nor the ROM nor what is backed nor the host's side. -/
theorem blockStep_frame {s t : State} (h : blockStep s = .next t) :
    t.regs = s.regs ∧ t.written = s.written ∧ t.ill = s.ill ∧ t.sinRom = s.sinRom ∧ t.backed = s.backed ∧
      t.marks = s.marks ∧ t.host = s.host ∧ t.answers = s.answers ∧ t.free = s.free := by
  rcases blockStep_next h with ⟨_, rfl⟩ | ⟨v, _, hv⟩
  · exact ⟨rfl, rfl, rfl, rfl, rfl, rfl, rfl, rfl, rfl⟩
  · rcases vmulAccess_next hv with ⟨_, _, _, rfl⟩ | ⟨_, _, _, rfl⟩ | ⟨_, _, rfl⟩ <;>
      exact ⟨rfl, rfl, rfl, rfl, rfl, rfl, rfl, rfl, rfl⟩

/-! ## Steps -/

/-- With nothing left for the host to do, a step is the block's own. -/
theorem step_of_host_nil {s : State} (h : s.host = []) : step s = blockStep s := by
  simp [step, nextEvent, h]

/-- With nothing left for the host to do, a flight takes its next access. -/
theorem step_of_flight {s t : State} {v : VmulFlight} (hv : s.vmul = some v) (hh : s.host = [])
    (h : vmulAccess v s = .next t) : step s = .next t := by
  rw [step_of_host_nil hh]
  unfold blockStep
  rw [hv]
  exact h

/-- A host action that must wait leaves the step to the block (R34). -/
theorem step_of_stall {s : State} {a : HostAction} {rest : List HostAction} (h : s.host = a :: rest)
    (hb : s.busy = true) (ha : a.stalls = true) : step s = blockStep s := by
  simp [step, nextEvent, h, hb, ha]

/-- A host action that need not wait takes effect (R34). -/
theorem step_of_host {s : State} {a : HostAction} {rest : List HostAction} (h : s.host = a :: rest)
    (hb : (s.busy && a.stalls) = false) : step s = performHost a { s with host := rest } := by
  simp [step, nextEvent, h, hb]

/-- All a step can be. -/
theorem step_cases (s : State) :
    step s = blockStep s ∨
      ∃ a rest, s.host = a :: rest ∧ (s.busy && a.stalls) = false ∧ step s = performHost a { s with host := rest } := by
  unfold step nextEvent
  split
  · exact .inl rfl
  · next a rest h =>
    split
    · exact .inl rfl
    · next hb => exact .inr ⟨a, rest, h, by simpa using hb, rfl⟩

/-- A run of one more step, from a state whose step answers a next state. -/
theorem run_succ_of_step (k : Nat) {s t : State} (h : step s = .next t) :
    Sys2Proof.core.run (k + 1) s = Sys2Proof.core.run k t := by
  have hs : Sys2Proof.core.step s = .next t := h
  simp only [Host.Core.run]
  rw [hs]

end Sys2Proof.Machine
end

