-- ==== Sys2Proof/Laws/PerInstr.lean ====
section
/-! SUPPORT. Families of facts about the command as syntax, one lemma per constructor of Instr (LAWS.json). -/

namespace Sys2Proof

/-- The opcode a constructor has in R63. -/
def Instr.opcode : Instr → BitVec 8
  | .ldi _ _ => 0x01
  | .hi _ _ => 0x02
  | .lo _ _ => 0x03
  | .pack _ _ _ => 0x04
  | .cvtQ15Q16N _ _ => 0x10
  | .cvtQ15Q16S _ _ => 0x11
  | .cvtQ16Q1516 _ _ => 0x12
  | .cvtQ16Q15 _ _ => 0x13
  | .cvtQ1516Q16 _ _ => 0x14
  | .absQ15 _ _ => 0x20
  | .mulQ15Q15 _ _ _ => 0x21
  | .mulQ15Q16 _ _ _ => 0x22
  | .mulQ15Q1616 _ _ _ => 0x23
  | .mulQ16Q16 _ _ _ => 0x24
  | .mulQ32Q16 _ _ _ => 0x25
  | .mulQ32U16 _ _ _ => 0x26
  | .mulQ1616Q16 _ _ _ => 0x27
  | .mulQ1616U16 _ _ _ => 0x28
  | .mulQ1616Q1616 _ _ _ => 0x29
  | .vmulQ15Q16 _ _ _ _ => 0x2A
  | .divQ16Q16 _ _ _ => 0x2B
  | .interpQ15 _ _ _ _ => 0x30
  | .lutQ15 _ _ _ => 0x31
  | .sinQ15 _ _ => 0x40

namespace Laws

/-- The family: the encoded word carries the constructor's own opcode in its top byte (R61, R63). -/
def EncodeOpcode.Statement (i : Instr) : Prop := opcodeOf (encode i) = i.opcode

theorem EncodeOpcode.ldi (rd : Reg) (imm : Half) : EncodeOpcode.Statement (.ldi rd imm) := opcodeOf_encodeI _ _ _
theorem EncodeOpcode.hi (rd ra : Reg) : EncodeOpcode.Statement (.hi rd ra) := opcodeOf_encodeR _ _ _ _ _
theorem EncodeOpcode.lo (rd ra : Reg) : EncodeOpcode.Statement (.lo rd ra) := opcodeOf_encodeR _ _ _ _ _
theorem EncodeOpcode.pack (rd ra rb : Reg) : EncodeOpcode.Statement (.pack rd ra rb) := opcodeOf_encodeR _ _ _ _ _
theorem EncodeOpcode.cvtQ15Q16N (rd ra : Reg) : EncodeOpcode.Statement (.cvtQ15Q16N rd ra) := opcodeOf_encodeR _ _ _ _ _
theorem EncodeOpcode.cvtQ15Q16S (rd ra : Reg) : EncodeOpcode.Statement (.cvtQ15Q16S rd ra) := opcodeOf_encodeR _ _ _ _ _
theorem EncodeOpcode.cvtQ16Q1516 (rd ra : Reg) : EncodeOpcode.Statement (.cvtQ16Q1516 rd ra) := opcodeOf_encodeR _ _ _ _ _
theorem EncodeOpcode.cvtQ16Q15 (rd ra : Reg) : EncodeOpcode.Statement (.cvtQ16Q15 rd ra) := opcodeOf_encodeR _ _ _ _ _
theorem EncodeOpcode.cvtQ1516Q16 (rd ra : Reg) : EncodeOpcode.Statement (.cvtQ1516Q16 rd ra) := opcodeOf_encodeR _ _ _ _ _
theorem EncodeOpcode.absQ15 (rd ra : Reg) : EncodeOpcode.Statement (.absQ15 rd ra) := opcodeOf_encodeR _ _ _ _ _
theorem EncodeOpcode.mulQ15Q15 (rd ra rb : Reg) : EncodeOpcode.Statement (.mulQ15Q15 rd ra rb) := opcodeOf_encodeR _ _ _ _ _
theorem EncodeOpcode.mulQ15Q16 (rd ra rb : Reg) : EncodeOpcode.Statement (.mulQ15Q16 rd ra rb) := opcodeOf_encodeR _ _ _ _ _
theorem EncodeOpcode.mulQ15Q1616 (rd ra rb : Reg) : EncodeOpcode.Statement (.mulQ15Q1616 rd ra rb) := opcodeOf_encodeR _ _ _ _ _
theorem EncodeOpcode.mulQ16Q16 (rd ra rb : Reg) : EncodeOpcode.Statement (.mulQ16Q16 rd ra rb) := opcodeOf_encodeR _ _ _ _ _
theorem EncodeOpcode.mulQ32Q16 (rd ra rb : Reg) : EncodeOpcode.Statement (.mulQ32Q16 rd ra rb) := opcodeOf_encodeR _ _ _ _ _
theorem EncodeOpcode.mulQ32U16 (rd ra rb : Reg) : EncodeOpcode.Statement (.mulQ32U16 rd ra rb) := opcodeOf_encodeR _ _ _ _ _
theorem EncodeOpcode.mulQ1616Q16 (rd ra rb : Reg) : EncodeOpcode.Statement (.mulQ1616Q16 rd ra rb) := opcodeOf_encodeR _ _ _ _ _
theorem EncodeOpcode.mulQ1616U16 (rd ra rb : Reg) : EncodeOpcode.Statement (.mulQ1616U16 rd ra rb) := opcodeOf_encodeR _ _ _ _ _
theorem EncodeOpcode.mulQ1616Q1616 (rd ra rb : Reg) : EncodeOpcode.Statement (.mulQ1616Q1616 rd ra rb) := opcodeOf_encodeR _ _ _ _ _
theorem EncodeOpcode.vmulQ15Q16 (rd ra rb rc : Reg) : EncodeOpcode.Statement (.vmulQ15Q16 rd ra rb rc) := opcodeOf_encodeR _ _ _ _ _
theorem EncodeOpcode.divQ16Q16 (rd ra rb : Reg) : EncodeOpcode.Statement (.divQ16Q16 rd ra rb) := opcodeOf_encodeR _ _ _ _ _
theorem EncodeOpcode.interpQ15 (rd ra rb rc : Reg) : EncodeOpcode.Statement (.interpQ15 rd ra rb rc) := opcodeOf_encodeR _ _ _ _ _
theorem EncodeOpcode.lutQ15 (rd ra rb : Reg) : EncodeOpcode.Statement (.lutQ15 rd ra rb) := opcodeOf_encodeR _ _ _ _ _
theorem EncodeOpcode.sinQ15 (rd ra : Reg) : EncodeOpcode.Statement (.sinQ15 rd ra) := opcodeOf_encodeR _ _ _ _ _

end Laws

end Sys2Proof
end

