-- ==== Sys2Proof/Tests/Slice0.lean ====
section
/-! SUPPORT. The model's own tests. Expected values are those of spec/95_test_vectors.md (the section stands at each block) or
worked from the rule named; none is the model's own answer. The last part shows, for each obligation with hypotheses, a concrete
state and operands that meet them all, clause by clause at the ends of their ranges. -/

namespace Sys2Proof.Tests

open Sys2Proof.Machine Sys2Proof.Claims

/-! ## Helpers -/

/-- The state after reset with a sine ROM of zeros, so that a test can evaluate it. -/
def base : State := { State.reset with sinRom := Vector.replicate 512 0 }

/-- `base` with some registers written. -/
def put (rs : List (Reg × Word)) : State := rs.foldl (fun s p => s.setReg p.1 p.2) base

/-- A state with some words of data memory written. -/
def store (s : State) (ws : List (Half × Half)) : State := ws.foldl (fun s p => { s with mem := s.mem.writeWord p.1 p.2 }) s

/-- A state with pair `u` of the sine ROM set (R30). -/
def pair (s : State) (u : Fin 256) (slope intercept : Half) : State :=
  { s with sinRom := (s.sinRom.set (2 * u.val) slope).set (2 * u.val + 1) intercept }

/-- The next state, if there is one. -/
def nextOf (o : Host.Outcome State Fault Refusal) : Option State :=
  match o with
  | .next t => some t
  | .fault _ => none
  | .refused _ => none

/-- The fault, if there is one. -/
def faultOf (o : Host.Outcome State Fault Refusal) : Option Fault :=
  match o with
  | .next _ => none
  | .fault e => some e
  | .refused _ => none

/-- What register 0 holds after a command. -/
def x0After (i : Instr) (s : State) : Option Word := (nextOf (exec i s)).map fun t => t.x 0

/-- What `x0 <- op(x1)` gives for a value of x1. -/
def one (i : Instr) (a : Word) : Option Word := x0After i (put [(1, a)])

/-- What `x0 <- op(x1, x2)` gives. -/
def two (i : Instr) (a b : Word) : Option Word := x0After i (put [(1, a), (2, b)])

/-- A flight of two elements from word 0xFFFF to itself, scalar one half (95 section 2.5, third row). -/
def flight : VmulFlight := ⟨0xFFFF, 0xFFFF, 0x8000, 2, 2, 0, none⟩

/-- `base` with that flight running and its first word in memory. -/
def flying (v : VmulFlight) : State := { store base [(0xFFFF, 0x4000), (0, 0x2000)] with vmul := some v }

/-! ## Well-formedness: one ill-formed line for each check, refused (R68, R69) -/

theorem test_wf_register : (AsmLine.command "HI" [16, 0] none).registersInRange = false ∧
    (AsmLine.command "HI" [16, 0] none).wf = false := by decide
theorem test_wf_register_li32 : (AsmLine.li32 1 16 0).registersInRange = false ∧ (AsmLine.li32 1 16 0).wf = false := by decide
theorem test_wf_immediate : (AsmLine.command "LDI" [1] (some 65536)).immediateInRange = false ∧
    (AsmLine.command "LDI" [1] (some 65536)).wf = false := by decide
theorem test_wf_immediate_li32 : (AsmLine.li32 1 2 4294967296).immediateInRange = false ∧
    (AsmLine.li32 1 2 4294967296).wf = false := by decide
theorem test_wf_operands : (AsmLine.command "HI" [1, 2, 3] none).operandsMatch = false ∧
    (AsmLine.command "HI" [1, 2, 3] none).wf = false ∧ (AsmLine.command "NOP" [] none).wf = false := by decide
theorem test_wf_scratch : (AsmLine.li32 3 3 7).scratchDiffers = false ∧ (AsmLine.li32 3 3 7).wf = false := by decide
theorem test_wf_good : (AsmLine.command "LDI" [15] (some 65535)).assemble = some [.ldi 15 0xFFFF] ∧
    (AsmLine.li32 1 15 0x00018000).assemble = some [.ldi 15 1, .ldi 1 0x8000, .pack 1 15 1] := by decide
theorem test_text : (Instr.vmulQ15Q16 4 5 6 7).text = "VMUL.Q15.Q16 x4, x5, x6, x7" ∧
    (Instr.ldi 1 0x4000).text = "LDI x1, 16384" := by decide +kernel

/-! ## Decoding: a word of every command, as section 2.1 of the vectors spells it, and the illegal words listed there -/

theorem test_decode_ldi : decodeWord 0x01F0FFFF = .command (.ldi 15 0xFFFF) := by decide
theorem test_decode_hi : decodeWord 0x02020000 = .command (.hi 0 2) := by decide
theorem test_decode_lo : decodeWord 0x03020000 = .command (.lo 0 2) := by decide
theorem test_decode_pack : decodeWord 0x04012000 = .command (.pack 0 1 2) := by decide
theorem test_decode_cvtQ15Q16N : decodeWord 0x10010000 = .command (.cvtQ15Q16N 0 1) := by decide
theorem test_decode_cvtQ15Q16S : decodeWord 0x11010000 = .command (.cvtQ15Q16S 0 1) := by decide
theorem test_decode_cvtQ16Q1516 : decodeWord 0x12010000 = .command (.cvtQ16Q1516 0 1) := by decide
theorem test_decode_cvtQ16Q15 : decodeWord 0x13010000 = .command (.cvtQ16Q15 0 1) := by decide
theorem test_decode_cvtQ1516Q16 : decodeWord 0x14010000 = .command (.cvtQ1516Q16 0 1) := by decide
theorem test_decode_absQ15 : decodeWord 0x20010000 = .command (.absQ15 0 1) := by decide
theorem test_decode_mulQ15Q15 : decodeWord 0x21312000 = .command (.mulQ15Q15 3 1 2) := by decide
theorem test_decode_mulQ15Q16 : decodeWord 0x22FFF000 = .command (.mulQ15Q16 15 15 15) := by decide
theorem test_decode_mulQ15Q1616 : decodeWord 0x23012000 = .command (.mulQ15Q1616 0 1 2) := by decide
theorem test_decode_mulQ16Q16 : decodeWord 0x24012000 = .command (.mulQ16Q16 0 1 2) := by decide
theorem test_decode_mulQ32Q16 : decodeWord 0x25012000 = .command (.mulQ32Q16 0 1 2) := by decide
theorem test_decode_mulQ32U16 : decodeWord 0x26012000 = .command (.mulQ32U16 0 1 2) := by decide
theorem test_decode_mulQ1616Q16 : decodeWord 0x27012000 = .command (.mulQ1616Q16 0 1 2) := by decide
theorem test_decode_mulQ1616U16 : decodeWord 0x28012000 = .command (.mulQ1616U16 0 1 2) := by decide
theorem test_decode_mulQ1616Q1616 : decodeWord 0x29012000 = .command (.mulQ1616Q1616 0 1 2) := by decide
theorem test_decode_vmulQ15Q16 : decodeWord 0x2A456700 = .command (.vmulQ15Q16 4 5 6 7) := by decide
theorem test_decode_divQ16Q16 : decodeWord 0x2B012000 = .command (.divQ16Q16 0 1 2) := by decide
theorem test_decode_interpQ15 : decodeWord 0x30FEDC00 = .command (.interpQ15 15 14 13 12) := by decide
theorem test_decode_lutQ15 : decodeWord 0x31012000 = .command (.lutQ15 0 1 2) := by decide
theorem test_decode_sinQ15 : decodeWord 0x40010000 = .command (.sinQ15 0 1) := by decide

theorem test_illegal_opcode : [0x00000000, 0xFFFFFFFF, 0x05000000, 0x15010000, 0x2C012000, 0x32012000, 0x41010000].map decodeWord =
    List.replicate 7 (.illegal .unknownOpcode) := by decide
theorem test_illegal_lowByte : [0x10010001, 0x2A456701].map decodeWord = List.replicate 2 (.illegal .lowByteSet) := by decide
theorem test_illegal_unused : [0x10011000, 0x40010100, 0x21312100, 0x31012300].map decodeWord =
    List.replicate 4 (.illegal .unusedFieldSet) := by decide
theorem test_illegal_zero4 : decodeWord 0x011F4000 = .illegal .zero4Set := by decide
theorem test_table_word : decodeTableWord 32 0x0110C000 = some (.ldi 1 0xC000) ∧ decodeTableWord 32 0x011F4000 = none := by decide
theorem test_encode : encode (.interpQ15 0 1 2 3) = 0x30012300 ∧ encode (.ldi 1 0x4000) = 0x01104000 := by decide

/-! ## The commands (95 sections 2.2 to 2.9) -/

theorem test_ldi : x0After (.ldi 0 0x8000) base = some 0x00008000 := by decide
theorem test_hi : one (.hi 0 1) 0xFFFF8000 = some 0x0000FFFF := by decide
theorem test_lo : one (.lo 0 1) 0xFFFF8000 = some 0x00008000 := by decide
theorem test_pack : two (.pack 0 1 2) 0xABCD0003 0x1234C000 = some 0x0003C000 := by decide
theorem test_pack_into_source : (nextOf (exec (.pack 1 2 1) (put [(1, 0x5678), (2, 0x1234)]))).map (·.x 1) =
    some 0x12345678 := by decide

theorem test_cvtQ15Q16N : [0x7FFF, 0x8000, 0x8001, 0xC000].map (one (.cvtQ15Q16N 0 1)) =
    [some 0xFFFE, some 0, some 2, some 0x8000] := by decide
theorem test_cvtQ15Q16S : [0x4000, 0x7FFF, 0x8000, 0xFFFF].map (one (.cvtQ15Q16S 0 1)) =
    [some 0x8000, some 0xFFFE, some 0, some 0] := by decide
theorem test_cvtQ16Q1516 : one (.cvtQ16Q1516 0 1) 0xFFFF8001 = some 0x00008001 := by decide
theorem test_cvtQ16Q15 : [0x0001, 0x8000, 0xFFFF].map (one (.cvtQ16Q15 0 1)) = [some 0, some 0x4000, some 0x7FFF] := by decide
theorem test_cvtQ1516Q16 : [0x0000FFFF, 0x00010000, 0x7FFFFFFF, 0x80000000, 0xFFFF8000].map (one (.cvtQ1516Q16 0 1)) =
    [some 0xFFFF, some 0xFFFF, some 0xFFFF, some 0, some 0] := by decide

theorem test_absQ15 : [0x7FFF, 0x8000, 0x8001, 0xC000, 0xFFFF].map (one (.absQ15 0 1)) =
    [some 0x7FFF, some 0x7FFF, some 0x7FFF, some 0x4000, some 1] := by decide
theorem test_mulQ15Q15 : two (.mulQ15Q15 0 1 2) 0x8000 0x4000 = some 0xC000 ∧
    two (.mulQ15Q15 0 1 2) 0xFFFF 1 = some 0xFFFF := by decide
theorem test_mulQ15Q15_wraps : two (.mulQ15Q15 0 1 2) 0x8000 0x8000 = some 0x8000 := by decide
theorem test_mulQ15Q16 : two (.mulQ15Q16 0 1 2) 0xA000 0x4000 = some 0xE800 ∧
    two (.mulQ15Q16 0 1 2) 0xFFFD 0x8000 = some 0xFFFE := by decide
theorem test_mulQ15Q1616 : two (.mulQ15Q1616 0 1 2) 0xF000 0x00028000 = some 0xD800 ∧
    two (.mulQ15Q1616 0 1 2) 0x7FFF 0xFFFFFFFF = some 0xFFFF := by decide
theorem test_mulQ16Q16 : two (.mulQ16Q16 0 1 2) 0xC000 0x4000 = some 0x3000 ∧
    two (.mulQ16Q16 0 1 2) 0xFFFF 0xFFFF = some 0xFFFE := by decide
theorem test_mulQ32Q16 : two (.mulQ32Q16 0 1 2) 0x12345678 0x4000 = some 0x048D159E ∧
    two (.mulQ32Q16 0 1 2) 0xFFFFFFFF 0xFFFF = some 0xFFFEFFFF := by decide
theorem test_mulQ32U16 : two (.mulQ32U16 0 1 2) 0x20000000 7 = some 0xE0000000 ∧
    two (.mulQ32U16 0 1 2) 0x80000001 2 = some 2 := by decide
theorem test_mulQ1616Q16 : two (.mulQ1616Q16 0 1 2) 0x00028000 0x4000 = some 0x0000A000 ∧
    two (.mulQ1616Q16 0 1 2) 0xFFFF0000 1 = some 0x0000FFFF := by decide
theorem test_mulQ1616U16 : two (.mulQ1616U16 0 1 2) 0x00018000 3 = some 0x00048000 ∧
    two (.mulQ1616U16 0 1 2) 0x80008000 2 = some 0x00010000 := by decide
theorem test_mulQ1616Q1616 : two (.mulQ1616Q1616 0 1 2) 0x0003C000 0x00024000 = some 0x00087000 ∧
    two (.mulQ1616Q1616 0 1 2) 0xFFFFFFFF 0xFFFFFFFF = some 0xFFFE0000 := by decide

theorem test_divQ16Q16 : two (.divQ16Q16 0 1 2) 2 3 = some 0x0000AAAA ∧
    two (.divQ16Q16 0 1 2) 0xFFFF 1 = some 0xFFFF0000 := by decide
theorem test_divQ16Q16_by_zero : (nextOf (exec (.divQ16Q16 0 1 2) (put [(1, 0x8000), (2, 0x00010000)]))).map
    (fun t => (t.marks, t.ill)) = some ({ base.marks with zeroDenominator := true }, false) := by decide

theorem test_interpQ15_extreme : x0After (.interpQ15 0 1 2 3) (put [(1, 0x8000), (2, 0x7FFF), (3, 0xFFFF)]) = some 0x7FFE ∧
    x0After (.interpQ15 0 1 2 3) (put [(1, 0x4000), (2, 0xC000), (3, 0x4000)]) = some 0x2000 := by decide
theorem test_interpQ15_ties : x0After (.interpQ15 0 1 2 3) (put [(1, 0), (2, 0xFFFD), (3, 0x8000)]) = some 0xFFFF ∧
    x0After (.interpQ15 0 1 2 3) (put [(1, 0), (2, 3), (3, 0x8000)]) = some 2 := by decide
theorem test_lutQ15 : x0After (.lutQ15 0 1 2) (store (put [(1, 0xFFF0), (2, 0x12FF)]) [(0x0002, 0x1000), (0x0003, 0x1800)]) =
    some 0x17F8 := by decide +kernel
theorem test_lutQ15_last : x0After (.lutQ15 0 1 2) (store (put [(1, 0x0200), (2, 0xFF80)]) [(0x02FF, 0x7000), (0x0300, 0x8000)]) =
    some 0xF800 := by decide +kernel
theorem test_sinQ15 : x0After (.sinQ15 0 1) (pair (put [(1, 0x51FF)]) 0x51 0xFFFF 0x7000) = some 0x6FFF := by decide +kernel
theorem test_sinQ15_wraps : x0After (.sinQ15 0 1) (pair (put [(1, 0xC001)]) 0xC0 0xFD00 0x8001) = some 0x7FFE := by decide +kernel

theorem test_vmulQ15Q16_latches : (nextOf (exec (.vmulQ15Q16 4 5 6 7)
    (put [(4, 0x0200), (5, 0x0100), (6, 0x8000), (7, 0x00010003)]))).bind (·.vmul) =
    some ⟨0x0200, 0x0100, 0x8000, 3, 3, 0, none⟩ := by decide
theorem test_vmulQ15Q16_zero_length : (nextOf (exec (.vmulQ15Q16 4 5 6 7) (put [(4, 0), (5, 0), (6, 0), (7, 0)]))).map
    (fun t => (t.marks, t.busy)) = some ({ base.marks with zeroLength := true }, true) := by decide
theorem test_vmul_access_reads : (nextOf (step (flying flight))).bind (·.vmul) = some { flight with fetched := some 0x4000 } := by
  decide +kernel
theorem test_vmul_access_writes_after_wrap :
    (nextOf (step (flying { flight with index := 1, fetched := some 0x2000 }))).map (fun t => (t.mem.readWord 0, t.vmul)) =
      some (0x1000, some { flight with index := 2 }) := by decide +kernel
theorem test_vmul_access_ends : (nextOf (step (flying { flight with index := 2 }))).map (fun t => (t.busy, t.cix)) =
    some (false, 1) := by decide +kernel

/-! ## The host port and faults (95 section 2.10) -/

theorem test_unwritten_register_marks_the_run : (nextOf (exec (.hi 0 1) base)).map (·.faulted) = some true ∧
    (nextOf (exec (.hi 0 1) (put [(1, 1)]))).map (·.faulted) = some false := by decide
theorem test_illegal_word_sets_ill : (nextOf (step { base with host := [.writePort .cmd 0] })).map
    (fun t => (t.statusWord, t.regs, t.mem, t.faulted)) = some (2, base.regs, [], true) := by decide +kernel
theorem test_status_read_and_write : (nextOf (step { base with ill := true, host := [.readPort .status] })).map (·.answers) =
    some [.port .status 2] ∧
    (nextOf (step { base with host := [.writePort .status 0xFFFFFFFF] })).map (·.statusWord) = some 0 := by decide +kernel
theorem test_port_numbers : Port.ofNumber 15 = some (.reg 15) ∧ Port.ofNumber 16 = some .cmd ∧ Port.ofNumber 17 = some .status ∧
    Port.ofNumber 18 = none := by decide
theorem test_lutQ15_unbacked : faultOf (exec (.lutQ15 0 1 2)
    { put [(1, 0x0100), (2, 0x1280)] with backed := [⟨0x0100, 0x13⟩] }) = some (.unbackedAccess 0x0113 base.marks) := by decide
/-- Row 5 comes before rows 2, 3 and 6 (R166): x2 or x7 was never written. -/
theorem test_priority_unwritten_before_zero : (nextOf (exec (.divQ16Q16 0 1 2) (put [(1, 5)]))).map (·.marks) =
    some { base.marks with unwrittenRead := true } ∧
    (nextOf (exec (.vmulQ15Q16 4 5 6 7) base)).map (·.marks) = some { base.marks with unwrittenRead := true } := by decide
theorem test_priority_unwritten_before_unbacked : faultOf (exec (.lutQ15 0 1 2) { put [(1, 7)] with backed := [] }) =
    some (.unbackedAccess 7 { base.marks with unwrittenRead := true }) := by decide
/-- A host that reads a never-written x0 and then resets has not made the run good (R19, R23). -/
theorem test_reset_keeps_the_run_faulted : (nextOf (step { base with host := [.readPort (.reg 0), .reset] })).bind
    (fun t => (nextOf (step t)).map fun u => (u.answers, u.faulted, u.final)) =
    some ([.port (.reg 0) 0], true, false) := by decide +kernel
/-- Every command word issued, BUSY = 0, no fault: final, whatever else the host still has to do (R192). -/
theorem test_final : ({ base with host := [.readPort .status, .readMem 3, .writeMem 3 1, .wait, .reset] } : State).final = true ∧
    ({ base with host := [.wait, .writePort .cmd 0x01100007] } : State).final = false ∧ (flying flight).final = false := by decide
theorem test_host_unbacked : faultOf (step { base with backed := [⟨0, 5⟩], host := [.readMem 5] }) =
    some (.unbackedHostAccess 5) := by decide
theorem test_fetch_word_runs : (nextOf (step (base.withFetchWord 32 0x01100007))).map (fun t => (t.x 1, t.host)) =
    some (7, []) := by decide +kernel

/-! ## Memory -/

theorem test_memory_canonical : (store base [(1, 0x1200), (0, 0x0034), (1, 0)]).mem = [(0, 0x34)] ∧
    (store base [(0xFFFF, 0xABCD)]).mem = [(131070, 0xCD), (131071, 0xAB)] := by decide +kernel
theorem test_reset_memory_wf : State.reset.mem.wf = true := by decide

/-! ## Witnesses: the hypotheses of each obligation can be met -/

/-- All of memory is backed after reset, so in every state built from `base` by writing registers and words. -/
theorem all_backed {s : State} (h : s.backed = [⟨0, 65536⟩]) (a : Half) : s.memValid a = true := by
  have := a.isLt
  simp [State.memValid, WordRange.holds, h, this]

theorem witness_LegalWordIsItsCommandsEncoding : decodeWord 0x2A456700 = .command (.vmulQ15Q16 4 5 6 7) := by decide
theorem witness_LegalExactlyWhenARowMatches : (0x01000000, 0xFF0F0000) ∈ maskTable ∧
    (0x01F0FFFF : Word) &&& 0xFF0F0000 = 0x01000000 := by decide
theorem witness_ConversionsHaveTheirValues : 0 ≤ (low (put [(1, 0)]) 1).toInt ∧ 0 ≤ (low (put [(1, 0x7FFF)]) 1).toInt := by decide
theorem witness_QuotientIsTheFloor : low (put [(2, 0xFFFF0001)]) 2 ≠ 0 ∧ low (put [(2, 0xFFFF)]) 2 ≠ 0 := by decide
theorem witness_ZeroDenominatorWritesSomePattern : low (put [(2, 0x00010000)]) 2 = 0 := by decide

theorem witness_TableLookUpInterpolatesTwoWords_ends :
    (low (put [(1, 0x0200), (2, 0xFFFF)]) 2).toNat = 256 * 255 + 255 ∧
    (put [(1, 0x0200), (2, 0xFFFF)]).memValid (element 0x0200 255) = true ∧
    (put [(1, 0x0200), (2, 0xFFFF)]).memValid (element 0x0200 256) = true ∧
    (low (put [(1, 0x0200), (2, 0)]) 2).toNat = 256 * 0 + 0 := by decide
theorem witness_TableLookUpSticksOnUnbackedWord :
    (low (put [(2, 0x12FF)]) 2).toNat = 256 * 0x12 + 255 ∧
    ({ put [(2, 0x12FF)] with backed := [⟨0x13, 1⟩] } : State).memValid (element 0 0x12) = false ∧
    ({ put [(2, 0x12FF)] with backed := [⟨0x12, 1⟩] } : State).memValid (element 0 0x13) = false := by decide
theorem witness_SineEvaluatesItsSegment : (low (put [(1, 0xFFFF)]) 1).toNat = 256 * 255 + 255 ∧
    (low (put [(1, 0x8000)]) 1).toNat = 256 * 128 + 0 := by decide
theorem witness_VectorMultiplyLatchesItsOperands : low (put [(7, 1)]) 7 ≠ 0 ∧ low (put [(7, 0xFFFF)]) 7 ≠ 0 := by decide
theorem witness_ZeroLengthStartsSomeNumberOfElements : low (put [(7, 0x00010000)]) 7 = 0 := by decide

theorem witness_RegisterCommandsFrame : (Instr.divQ16Q16 0 1 2).dest = some 0 ∧
    (∃ t, exec (.divQ16Q16 0 1 2) (put [(2, 1)]) = .next t) ∧ (∃ t, exec (.divQ16Q16 0 1 2) (put [(2, 0)]) = .next t) ∧
    ∀ ra rb, Instr.ldi 0 5 ≠ .divQ16Q16 0 ra rb :=
  ⟨rfl, ⟨_, rfl⟩, ⟨_, rfl⟩, fun _ _ h => by cases h⟩
theorem witness_VectorMultiplyStartFrame : (∃ t, exec (.vmulQ15Q16 4 5 6 7) (put [(7, 3)]) = .next t) ∧
    ∃ t, exec (.vmulQ15Q16 4 5 6 7) (put [(7, 0)]) = .next t := ⟨⟨_, rfl⟩, ⟨_, rfl⟩⟩
theorem witness_UpperHalvesAreIgnored : ReadsLowHalvesOnly (.lo 0 1) ∧ (Instr.lo 0 1).dest = some 0 ∧
    (∀ r, low (put [(1, 5)]) r = low (put [(1, 0xFFFF0005)]) r) ∧ (put [(1, 5)]).x 1 ≠ (put [(1, 0xFFFF0005)]).x 1 ∧
    (∃ t, exec (.lo 0 1) (put [(1, 5)]) = .next t) ∧
    ReadsLowHalvesOnly (.absQ15 0 1) ∧ (Instr.absQ15 0 1).dest = some 0 ∧ ∃ t, exec (.absQ15 0 1) (put [(1, 5)]) = .next t :=
  ⟨trivial, rfl, by decide, by decide, ⟨_, rfl⟩, trivial, rfl, _, rfl⟩

theorem witness_MultipliesNeverRoundUp :
    (let s := put [(1, 0x8000), (2, 0x7FFF)];
     -32768 * 32768 ≤ (low s 1).toInt * (low s 2).toInt ∧ (low s 1).toInt * (low s 2).toInt < 32768 * 32768) ∧
    (let s := put [(1, 0x8000), (2, 0x00010000)];
     -32768 * 65536 ≤ (low s 1).toInt * (s.x 2).toNat ∧ (low s 1).toInt * (s.x 2).toNat < 32768 * 65536) ∧
    (let s := put [(1, 0xFFFFFFFF), (2, 0xFFFF)]; (s.x 1).toNat * (low s 2).toNat < 2 ^ 32 * 65536) ∧
    (let s := put [(1, 0x10001), (2, 0xFFFF)]; (s.x 1).toNat * (low s 2).toNat < 2 ^ 32) ∧
    (let s := put [(1, 0x00FF0000), (2, 0x01000000)]; (s.x 1).toNat * (s.x 2).toNat < 2 ^ 32 * 65536) := by decide
theorem witness_WhichMultipliesOverflow : (low (put [(1, 0x8000)]) 1 = 0x8000 ∧ low (put [(1, 0x8000)]) 1 = 0x8000) ∧
    ¬(low (put [(1, 0x8000), (2, 0x7FFF)]) 1 = 0x8000 ∧ low (put [(1, 0x8000), (2, 0x7FFF)]) 2 = 0x8000) := by decide
theorem witness_SelfQuotientIsOne : low (put [(1, 1)]) 1 ≠ 0 ∧ low (put [(1, 0xFFFF)]) 1 ≠ 0 := by decide
theorem witness_InterpolationStaysBetweenSamples : low (put [(3, 0xABCD0000)]) 3 = 0 ∧ low (put [(3, 0xFFFF)]) 3 = 0xFFFF := by
  decide
theorem witness_InterpolationIsMonotonic :
    let s := put [(1, 0x1000), (2, 0x3000), (3, 0)]
    let s' := put [(1, 0x1000), (2, 0x3000), (3, 0xFFFF)]
    low s 1 = low s' 1 ∧ low s 2 = low s' 2 ∧ (low s 3).toNat ≤ (low s' 3).toNat ∧ (low s 1).toInt ≤ (low s 2).toInt ∧
      (low s 2).toInt > (low s 1).toInt := by decide
theorem witness_InterpolationIsMonotonic_falling :
    let s := put [(1, 0x7FFF), (2, 0x8000), (3, 0x8000)]
    let s' := put [(1, 0x7FFF), (2, 0x8000), (3, 0x8001)]
    low s 1 = low s' 1 ∧ low s 2 = low s' 2 ∧ (low s 3).toNat ≤ (low s' 3).toNat ∧ (low s 2).toInt < (low s 1).toInt := by decide
theorem witness_TableLookUpIsTwoPointInterpolation :
    let s := put [(1, 0x0200), (2, 0xFFFF)]
    let s' := put [(1, 0), (2, 0), (3, 255 * 256)]
    (low s 2).toNat = 256 * 255 + 255 ∧ s.memValid (element (low s 1) 255) = true ∧ s.memValid (element (low s 1) 256) = true ∧
      low s' 1 = s.mem.readWord (element (low s 1) 255) ∧ low s' 2 = s.mem.readWord (element (low s 1) 256) ∧
      (low s' 3).toNat = 255 * 256 := by decide
theorem witness_SineProductIsTheTruncatingMultiply : (low (put [(1, 0x7FFF)]) 1).toNat = 256 * 127 + 255 ∧
    (low (put [(1, 0)]) 1).toNat = 256 * 0 + 0 := by decide
theorem witness_SineOfZeroIsZero : (State.reset.setReg 1 0xFFFF0000).sinRom = State.reset.sinRom ∧
    low (State.reset.setReg 1 0xFFFF0000) 1 = 0 := ⟨rfl, by decide⟩
theorem witness_SplittingAndPackingAreInverse : (1 : Reg) ≠ 2 ∧ (1 : Reg) ≠ 3 ∧ (2 : Reg) ≠ 3 := by decide
theorem witness_PseudoCommandBuildsThePattern : (1 : Reg) ≠ 15 := by decide

theorem witness_PreconditionsKeepTheRunUnmarked_div : Preconditions (.divQ16Q16 0 1 2) (put [(1, 5), (2, 1)]) :=
  ⟨by decide, by decide⟩
theorem witness_PreconditionsKeepTheRunUnmarked_lut : Preconditions (.lutQ15 0 1 2) (put [(1, 0x200), (2, 1)]) :=
  ⟨by decide, fun _ _ => all_backed rfl _⟩
theorem witness_PreconditionsKeepTheRunUnmarked_vmul :
    Preconditions (.vmulQ15Q16 4 5 6 7) (put [(4, 0x200), (5, 0x200), (6, 1), (7, 0xFFFF)]) :=
  ⟨by decide, by decide, fun _ _ => all_backed rfl _, fun _ _ => all_backed rfl _, .inl (by decide)⟩
theorem witness_PreconditionsKeepTheRunUnmarked_other : Preconditions (.absQ15 0 1) (put [(1, 5)]) := ⟨by decide, trivial⟩

theorem witness_IllegalWordSetsOnlyIll : decodeWord 0 = .illegal .unknownOpcode ∧ base.busy = false ∧
    ({ base with host := [.writePort .cmd 0] } : State).host = .writePort .cmd 0 :: [] := by decide
theorem witness_IllStaysUntilReset : let s : State := { base with ill := true, host := [.readPort .status] };
    (∃ t, step s = .next t) ∧ s.ill = true ∧ s.host.head? ≠ some .reset := ⟨⟨_, rfl⟩, rfl, by decide⟩
theorem witness_OnlyIllegalWordsSetIll : ∃ t, step { base with host := [.writePort .cmd 0] } = .next t ∧ base.ill = false ∧
    t.ill = true := ⟨_, rfl, rfl, rfl⟩
theorem witness_StepRunsTheDecodedCommand : decodeWord 0x01100007 = .command (.ldi 1 7) ∧ base.busy = false ∧
    ({ base with host := [.writePort .cmd 0x01100007] } : State).host = [.writePort .cmd 0x01100007] ∧
    decodeTableWord 32 0x01100007 = some (.ldi 1 7) := by decide
theorem witness_StallingAccessWaitsForTheBlock : (flying flight).busy = true ∧
    (∃ t, step { flying flight with host := [.readPort (.reg 3)] } = .next t) ∧
    (∃ t, step { flying flight with host := [.writePort (.reg 3) 1] } = .next t) ∧
    ∃ t, step { flying flight with host := [.writePort .cmd 0] } = .next t := ⟨rfl, ⟨_, rfl⟩, ⟨_, rfl⟩, _, rfl⟩
theorem witness_RegistersAreFixedWhileBusy : let s : State := { flying flight with host := [.writePort (.reg 3) 1] };
    (∃ t, step s = .next t) ∧ s.busy = true ∧ s.host.head? ≠ some .reset := ⟨⟨_, rfl⟩, rfl, by decide⟩
theorem witness_HostReadsAndWritesRegisters : base.busy = false ∧
    ({ base with host := [.readPort (.reg 0)] } : State).host = .readPort (.reg 0) :: [] ∧
    ({ base with host := [.writePort (.reg 15) 9] } : State).host = .writePort (.reg 15) 9 :: [] := by decide
theorem witness_CmdAndStatusPorts :
    ({ flying flight with host := [.readPort .cmd] } : State).host = .readPort .cmd :: [] ∧
    ({ base with host := [.readPort .status] } : State).host = .readPort .status :: [] ∧
    ({ base with host := [.writePort .status 1] } : State).host = .writePort .status 1 :: [] := by decide
theorem witness_HostReadsAndWritesMemory : base.memValid 0xFFFF = true ∧ base.mem.wf = true ∧
    ({ base with host := [.readMem 0xFFFF] } : State).host = .readMem 0xFFFF :: [] ∧
    ({ base with host := [.writeMem 0 7] } : State).host = .writeMem 0 7 :: [] := by decide
theorem witness_ResetLeavesMemoryAndRom : ({ flying flight with host := [.reset] } : State).host = .reset :: [] := rfl

theorem witness_VectorMultiplyTakesOneAccessAStep :
    (flying flight).vmul = some flight ∧ (flying flight).host = [] ∧ flight.fetched = none ∧ flight.index < flight.count ∧
    (∀ a, (flying flight).memValid a = true) ∧
    (flying { flight with fetched := some 9 }).vmul = some { flight with fetched := some 9 } ∧
    ({ flight with index := 2 } : VmulFlight).count ≤ ({ flight with index := 2 } : VmulFlight).index :=
  ⟨rfl, rfl, rfl, by decide, all_backed rfl, rfl, by decide⟩
theorem witness_VectorMultiplyAccessFrame : (flying { flight with fetched := some 9 }).mem.wf = true ∧
    (∃ t, blockStep (flying { flight with fetched := some 9 }) = .next t) ∧ ∃ t, blockStep (flying flight) = .next t :=
  ⟨by decide +kernel, ⟨_, rfl⟩, _, rfl⟩
theorem witness_VectorMultiplyRunsTheLoop : (flying flight).vmul = some flight ∧ (flying flight).host = [] ∧
    flight.fetched = none ∧ flight.index ≤ flight.count ∧
    ∀ i, flight.index ≤ i → i < flight.count →
      (flying flight).memValid (element flight.src i) = true ∧ (flying flight).memValid (element flight.dst i) = true :=
  ⟨rfl, rfl, rfl, by decide, fun _ _ _ => ⟨all_backed rfl _, all_backed rfl _⟩⟩
theorem witness_VectorMultiplyScalesEveryElement_in_place :
    let s := store (put [(4, 0x100), (5, 0x100), (6, 0x8000), (7, 3)]) [(0x100, 0x4000)]
    3 = (low s 7).toNat ∧ s.host = [] ∧ s.mem.wf = true ∧
      (∀ i, i < 3 → s.memValid (element (low s 5) i) = true ∧ s.memValid (element (low s 4) i) = true) ∧ low s 4 = low s 5 :=
  ⟨by decide, rfl, by decide +kernel, fun _ _ => ⟨all_backed rfl _, all_backed rfl _⟩, by decide⟩
theorem witness_VectorMultiplyScalesEveryElement_disjoint :
    let s := put [(4, 0x200), (5, 0x100), (6, 0x8000), (7, 1)]
    1 = (low s 7).toNat ∧ s.host = [] ∧ s.mem.wf = true ∧
      (∀ i, i < 1 → s.memValid (element (low s 5) i) = true ∧ s.memValid (element (low s 4) i) = true) ∧
      ∀ i, i < 1 → ∀ j, j < 1 → element (low s 4) i ≠ element (low s 5) j :=
  ⟨by decide, rfl, by decide, fun _ _ => ⟨all_backed rfl _, all_backed rfl _⟩, by decide⟩
theorem witness_VectorMultiplySticksOnUnbackedWord :
    let s : State := { flying flight with backed := [] }
    let s' : State := { flying { flight with fetched := some 1 } with backed := [] }
    s.vmul = some flight ∧ s.host = [] ∧ flight.fetched = none ∧ flight.index < flight.count ∧
      s.memValid (element flight.src 0) = false ∧
      s'.vmul = some { flight with fetched := some 1 } ∧ s'.host = [] ∧ s'.memValid (element flight.dst 0) = false := by
  decide +kernel
theorem witness_FlightFinishes : let v := { flight with index := 1, fetched := some 7 };
    (flying v).vmul = some v ∧ v.Consistent ∧ (flying v).host = [] ∧
    ∀ i, i < v.count → (flying v).memValid (element v.src i) = true ∧ (flying v).memValid (element v.dst i) = true :=
  ⟨rfl, ⟨by decide, by decide, by decide⟩, rfl, fun _ _ => ⟨all_backed rfl _, all_backed rfl _⟩⟩
theorem witness_HazardFreeHostWriteCommutes : (flying flight).vmul = some flight ∧ flight.Consistent ∧
    (flying flight).mem.wf = true ∧ ¬RacesWith flight (.writeMem 1 5) ∧ ∃ t, blockStep (flying flight) = .next t :=
  ⟨rfl, ⟨by decide, by decide, by decide⟩, by decide +kernel,
   fun h => by
     simp only [RacesWith] at h
     revert h
     decide, _, rfl⟩

/-- A busy state that meets the invariant, with a step. -/
theorem witness_StepKeepsTheInvariant : (flying flight).Inv ∧ ∃ t, step (flying flight) = .next t :=
  ⟨⟨by decide +kernel, fun v h => by cases h; exact ⟨by decide, by decide, by decide⟩, by decide +kernel,
    by decide⟩, _, rfl⟩
theorem witness_RomAndMemoryMapAreConstant : ∃ t, step { flying flight with host := [.reset] } = .next t := ⟨_, rfl⟩
theorem witness_OnlyHostWritesAndFlightsChangeMemory : ∃ t,
    step { base with host := [.writeMem 3 9] } = .next t ∧ t.mem ≠ base.mem := ⟨_, rfl, by decide +kernel⟩
theorem witness_EventsComeOneAtATime : let s : State := { base with host := [.writePort .cmd 0, .reset] };
    (∃ t, step s = .next t) ∧ s.host.head? ≠ some .reset := ⟨⟨_, rfl⟩, by decide⟩
theorem witness_FaultedRunIsNeverFinal :
    let s : State := { base with ill := true, marks := { base.marks with illegalWord := true }, host := [.reset] };
    s.Inv ∧ (∃ t, step s = .next t) ∧ s.faulted = true :=
  ⟨⟨by decide, (by rintro v ⟨⟩), by decide +kernel, fun _ => rfl⟩, ⟨_, rfl⟩, rfl⟩

end Sys2Proof.Tests
end

section
/-! PROOF. A run that has gone wrong stays so (spec/60_exceptions.md R162): no event clears a fault mark, and under the
invariant ILL is 1 only in a run that carries one. -/

namespace Sys2Proof.Machine

/-! ## Marks are only added -/

/-- Every mark of `m` stands in `m'` too: nothing has cleared one (R162). -/
def FaultMarks.KeptIn (m m' : FaultMarks) : Prop :=
  (m.illegalWord = true → m'.illegalWord = true) ∧ (m.unwrittenRead = true → m'.unwrittenRead = true) ∧
    (m.zeroDenominator = true → m'.zeroDenominator = true) ∧ (m.zeroLength = true → m'.zeroLength = true)

theorem FaultMarks.KeptIn.refl (m : FaultMarks) : m.KeptIn m := ⟨id, id, id, id⟩

theorem FaultMarks.KeptIn.any {m m' : FaultMarks} (h : m.KeptIn m') (hm : m.any = true) : m'.any = true := by
  obtain ⟨hillegal, hunwritten, hdenominator, hlength⟩ := h
  simp only [FaultMarks.any, Bool.or_eq_true] at hm ⊢
  exact Or.imp (Or.imp (Or.imp hillegal hunwritten) hdenominator) hlength hm

/-- Only `VMUL.Q15.Q16` writes no register (R64). -/
theorem eq_vmul_of_dest_none {i : Instr} (h : i.dest = none) : ∃ rd ra rb rc, i = .vmulQ15Q16 rd ra rb rc := by
  cases i
  case vmulQ15Q16 rd ra rb rc => exact ⟨rd, ra, rb, rc, rfl⟩
  all_goals cases h

theorem execVmul_keeps_marks {rd ra rb rc : Reg} {s t : State} (h : exec (.vmulQ15Q16 rd ra rb rc) s = .next t) :
    s.marks.KeptIn t.marks := by
  simp only [exec, execVmulQ15Q16] at h
  split at h
  · cases h; simp +contextual [FaultMarks.KeptIn]
  · cases h; simp +contextual [FaultMarks.KeptIn]

theorem exec_keeps_marks {i : Instr} {s t : State} (h : exec i s = .next t) :
    s.marks.KeptIn t.marks := by
  cases hd : i.dest with
  | none =>
    obtain ⟨rd, ra, rb, rc, rfl⟩ := eq_vmul_of_dest_none hd
    exact execVmul_keeps_marks h
  | some rd =>
    obtain ⟨v, rfl | rfl⟩ := exec_next_of_dest hd h
    · simp +contextual [FaultMarks.KeptIn]
    · simp +contextual [FaultMarks.KeptIn]

theorem issue_keeps_marks {w : Word} {s t : State} (h : issue w s = .next t) :
    s.marks.KeptIn t.marks := by
  unfold issue at h
  split at h
  · exact exec_keeps_marks h
  · cases h
    simp +contextual [FaultMarks.KeptIn]

theorem readPort_keeps_marks (p : Port) (s : State) : s.marks.KeptIn (readPort p s).marks := by
  cases p with
  | reg r => simp +contextual [readPort, FaultMarks.KeptIn]
  | cmd => exact .refl _
  | status => exact .refl _

theorem writePort_keeps_marks {p : Port} {w : Word} {s t : State} (h : writePort p w s = .next t) :
    s.marks.KeptIn t.marks := by
  cases p with
  | reg r => cases h; exact .refl _
  | cmd => exact issue_keeps_marks h
  | status => cases h; exact .refl _

theorem blockStep_keeps_marks {s t : State} (h : blockStep s = .next t) :
    s.marks.KeptIn t.marks := by
  obtain ⟨-, -, -, -, -, hmarks, -⟩ := blockStep_frame h
  rw [hmarks]
  exact .refl _

/-- No host action clears a mark; reset is one of them and keeps the marks (log entry 16). -/
theorem performHost_keeps_marks {a : HostAction} {s t : State} (h : performHost a s = .next t) :
    s.marks.KeptIn t.marks := by
  cases a with
  | readPort p => cases h; exact readPort_keeps_marks p s
  | writePort p w => exact writePort_keeps_marks h
  | readMem a =>
    simp only [performHost] at h
    split at h <;> cases h
    exact .refl _
  | writeMem a v =>
    simp only [performHost] at h
    split at h <;> cases h
    exact .refl _
  | reset => cases h; exact .refl _
  | wait => exact blockStep_keeps_marks h

theorem step_keeps_marks {s t : State} (h : step s = .next t) : s.marks.KeptIn t.marks := by
  rcases step_cases s with hb | ⟨a, rest, -, -, ha⟩
  · exact blockStep_keeps_marks (hb.symm.trans h)
  · exact performHost_keeps_marks (s := { s with host := rest }) (ha.symm.trans h)

/-! ## Faulted and final -/

/-- Under the invariant a faulted run carries a mark: ILL alone cannot be what makes it faulted. -/
theorem State.Inv.marks_of_faulted {s : State} (hinv : s.Inv) (hf : s.faulted = true) : s.marks.any = true := by
  obtain ⟨-, -, -, hill⟩ := hinv
  rcases Bool.or_eq_true_iff.mp hf with h | h
  · simp [FaultMarks.any, hill h]
  · exact h

theorem State.faulted_of_marks {s : State} (hm : s.marks.any = true) : s.faulted = true := by
  simp [State.faulted, hm]

theorem State.not_final_of_faulted {s : State} (hf : s.faulted = true) : s.final = false := by
  simp [State.final, hf]

/-- Settles O60: the marks survive every step, and the invariant puts a mark behind every ILL that a reset could clear. -/
theorem faultedRunIsNeverFinal : Obligations.FaultedRunIsNeverFinal := by
  intro s t hinv hstep hf
  have ht : t.faulted = true := State.faulted_of_marks ((step_keeps_marks hstep).any (hinv.marks_of_faulted hf))
  exact ⟨ht, State.not_final_of_faulted ht⟩

end Sys2Proof.Machine
end

section
/-! PROOF. The upper half of a 16-bit operand is ignored (spec/00_scope.md R17, spec/30_encoding.md R64): what the commands that
read only low halves compute is a function of what `LowAgree` compares. -/

namespace Sys2Proof.Machine

open Sys2Proof.Claims

/-- The two states hold the same of all that a command reading only low halves can look at. -/
structure LowAgree (s s' : State) : Prop where
  xlo : ∀ r, s'.xlo r = s.xlo r
  mem : s'.mem = s.mem
  backed : s'.backed = s.backed
  sinRom : s'.sinRom = s.sinRom
  free : s'.free = s.free

theorem State.xlo_eq_low (s : State) (r : Reg) : s.xlo r = low s r := lowHalf_eq_setWidth (s.x r)

/-- What the block reads at a backed word depends on memory and on what is backed alone (R42, R43). -/
theorem memRead_ok_congr {s s' : State} {a v : Half} (hmem : s'.mem = s.mem) (hbacked : s'.backed = s.backed)
    (h : memRead s a = .ok v) : memRead s' a = .ok v := by
  rcases memRead_cases h with ⟨hv, hr⟩ | ⟨-, hr⟩
  · have hv' : s'.memValid a = true := by rwa [State.memValid, hbacked]
    rw [memRead, if_pos hv', hmem, hr]
  · cases hr

/-- A table look-up answers a next state exactly when both its words can be read (R134, R43). -/
theorem execLutQ15_next_iff {rd ra rb : Reg} {s t : State} :
    exec (.lutQ15 rd ra rb) s = .next t ↔ ∃ y1 y2,
      memRead (s.noteReads [ra, rb]) (seqAddr (s.xlo ra) (upperByte (s.xlo rb)).toNat) = .ok y1 ∧
      memRead (s.noteReads [ra, rb]) (seqAddr (s.xlo ra) ((upperByte (s.xlo rb)).toNat + 1)) = .ok y2 ∧
      t = s.complete16 [ra, rb] rd (interpolate 8 y1 y2 (unsigned (lowerByte (s.xlo rb)))) := by
  simp only [exec, execLutQ15]
  constructor
  · intro h
    split at h
    · cases h
    · next y1 h1 =>
      split at h
      · cases h
      · next y2 h2 => cases h; exact ⟨y1, y2, h1, h2, rfl⟩
  · rintro ⟨y1, y2, h1, h2, rfl⟩
    rw [h1]
    simp only [h2]

namespace LowAgree

variable {s s' t : State} (hag : LowAgree s s')
include hag

theorem divQ16Q16_x_dest {rd ra rb : Reg} (h : exec (.divQ16Q16 rd ra rb) s = .next t) :
    ∃ t', exec (.divQ16Q16 rd ra rb) s' = .next t' ∧ t'.x rd = t.x rd := by
  simp only [exec, execDivQ16Q16] at h ⊢
  rw [hag.xlo ra, hag.xlo rb, hag.free]
  split at h
  · next hzero => cases h; exact ⟨_, if_pos hzero, by simp⟩
  · next hne => cases h; exact ⟨_, if_neg hne, by simp⟩

theorem lutQ15_x_dest {rd ra rb : Reg} (h : exec (.lutQ15 rd ra rb) s = .next t) :
    ∃ t', exec (.lutQ15 rd ra rb) s' = .next t' ∧ t'.x rd = t.x rd := by
  obtain ⟨y1, y2, h1, h2, rfl⟩ := execLutQ15_next_iff.mp h
  rw [← hag.xlo ra, ← hag.xlo rb] at h1 h2
  have hread {a v : Half} (hr : memRead (s.noteReads [ra, rb]) a = .ok v) :
      memRead (s'.noteReads [ra, rb]) a = .ok v :=
    memRead_ok_congr (s := s.noteReads [ra, rb]) hag.mem hag.backed hr
  exact ⟨_, execLutQ15_next_iff.mpr ⟨y1, y2, hread h1, hread h2, rfl⟩, by simp [hag.xlo]⟩

theorem sinQ15_x_dest {rd ra : Reg} (h : exec (.sinQ15 rd ra) s = .next t) :
    ∃ t', exec (.sinQ15 rd ra) s' = .next t' ∧ t'.x rd = t.x rd := by
  cases h
  exact ⟨_, rfl, by simp [hag.xlo, sinSlope, sinIntercept, romRead, hag.sinRom]⟩

/-- Every command of the class computes the same result in states that agree. All but the division, the look-up and the sine
are functions of the operands' low halves alone. -/
theorem exec_x_dest {i : Instr} {rd : Reg} (hi : ReadsLowHalvesOnly i) (hd : i.dest = some rd)
    (h : exec i s = .next t) : ∃ t', exec i s' = .next t' ∧ t'.x rd = t.x rd := by
  cases i
  case divQ16Q16 => cases hd; exact hag.divQ16Q16_x_dest h
  case lutQ15 => cases hd; exact hag.lutQ15_x_dest h
  case sinQ15 => cases hd; exact hag.sinQ15_x_dest h
  case lo _ ra =>
    cases hd; cases h
    have hlow : lowHalf (s'.x ra) = lowHalf (s.x ra) := hag.xlo ra
    exact ⟨_, rfl, by simp [hlow]⟩
  case ldi | pack | cvtQ15Q16N | cvtQ15Q16S | cvtQ16Q1516 | cvtQ16Q15 | absQ15 | mulQ15Q15 | mulQ15Q16 | mulQ16Q16 |
      interpQ15 =>
    cases hd; cases h
    exact ⟨_, rfl, by simp [hag.xlo]⟩
  all_goals exact hi.elim

end LowAgree

/-- Settles O22: the hypotheses are `LowAgree`, read with the model's own low half. -/
theorem upperHalvesAreIgnored : Obligations.UpperHalvesAreIgnored := by
  intro i s s' t rd hi hd hlow hmem hbacked hrom hfree h
  have hag : LowAgree s s' :=
    { xlo := fun r => by rw [State.xlo_eq_low, State.xlo_eq_low, hlow r]
      mem := hmem.symm
      backed := hbacked.symm
      sinRom := hrom.symm
      free := hfree.symm }
  exact hag.exec_x_dest hi hd h

end Sys2Proof.Machine
end

section
/-! PROOF. What one step can be, said once (spec/10_state.md R37, spec/20_memory.md R52), and what every step keeps: ILL, the ROM,
the map of memory, the contents of memory, the order of the host's actions, and the invariant. -/

namespace Sys2Proof.Machine

/-! ## Inversion of a step -/

/-- The events that take `s` to `t`: the block's own step, when the host is silent, stalls or waits, or one of the host's
actions taking effect. `rest` is what the host's list holds afterwards. -/
inductive Event (s t : State) : Prop
  | block (rest : List HostAction) (hhost : s.host = rest ∨ s.host = .wait :: rest)
      (h : blockStep { s with host := rest } = .next t)
  | readPort (p : Port) (rest : List HostAction) (hhost : s.host = .readPort p :: rest)
      (ht : t = Machine.readPort p { s with host := rest })
  | writeReg (r : Reg) (w : Word) (rest : List HostAction) (hhost : s.host = .writePort (.reg r) w :: rest)
      (ht : t = State.setReg { s with host := rest } r w)
  | command (w : Word) (i : Instr) (rest : List HostAction) (hhost : s.host = .writePort .cmd w :: rest)
      (h : exec i { s with host := rest } = .next t)
  | illegal (w : Word) (why : IllegalReason) (rest : List HostAction) (hhost : s.host = .writePort .cmd w :: rest)
      (hw : decodeWord w = .illegal why) (ht : t = State.raiseIllegal { s with host := rest })
  | writeStatus (w : Word) (rest : List HostAction) (hhost : s.host = .writePort .status w :: rest)
      (ht : t = { s with host := rest })
  | readMem (a : Half) (rest : List HostAction) (hhost : s.host = .readMem a :: rest)
      (ht : t = { s with host := rest, answers := .mem a (s.mem.readWord a) :: s.answers })
  | writeMem (a v : Half) (rest : List HostAction) (hhost : s.host = .writeMem a v :: rest)
      (ht : t = { s with host := rest, mem := s.mem.writeWord a v })
  | reset (rest : List HostAction) (hhost : s.host = .reset :: rest)
      (ht : t = State.applyReset { s with host := rest })

/-- A host action that takes effect is an event. -/
theorem Event.of_performHost {s t : State} {a : HostAction} {rest : List HostAction} (hhost : s.host = a :: rest)
    (h : performHost a { s with host := rest } = .next t) : Event s t := by
  cases a with
  | readPort p => cases h; exact .readPort p rest hhost rfl
  | writePort p w =>
    cases p with
    | reg r => cases h; exact .writeReg r w rest hhost rfl
    | cmd =>
      simp only [performHost, writePort, issue] at h
      split at h
      · exact .command w _ rest hhost h
      · next why hw => cases h; exact .illegal w why rest hhost hw rfl
    | status => cases h; exact .writeStatus w rest hhost rfl
  | readMem a =>
    simp only [performHost] at h
    split at h <;> cases h
    exact .readMem a rest hhost rfl
  | writeMem a v =>
    simp only [performHost] at h
    split at h <;> cases h
    exact .writeMem a v rest hhost rfl
  | reset => cases h; exact .reset rest hhost rfl
  | wait => exact .block rest (.inr hhost) h

/-- Every step that answers a next state is one event. -/
theorem Event.of_step {s t : State} (h : step s = .next t) : Event s t := by
  rcases step_cases s with hb | ⟨a, rest, hhost, -, ha⟩
  · exact .block s.host (.inl rfl) (hb.symm.trans h)
  · exact .of_performHost hhost (ha.symm.trans h)

/-! ## What a command, a port read and the block's own step leave alone -/

/-- No command touches ILL, the ROM, data memory, what is backed or the host's list, and it retires at most once. -/
theorem exec_frame {i : Instr} {s t : State} (h : exec i s = .next t) :
    t.ill = s.ill ∧ t.sinRom = s.sinRom ∧ t.mem = s.mem ∧ t.backed = s.backed ∧ t.host = s.host ∧
      (t.cix = s.cix ∨ t.cix = s.cix + 1) := by
  cases hd : i.dest with
  | none =>
    obtain ⟨rd, ra, rb, rc, rfl⟩ := eq_vmul_of_dest_none hd
    obtain ⟨v, m, n, hv, -⟩ := execVmul_next rd ra rb rc s
    cases hv.symm.trans h
    exact ⟨rfl, rfl, rfl, rfl, rfl, .inl rfl⟩
  | some rd =>
    obtain ⟨v, rfl | rfl⟩ := exec_next_of_dest hd h <;> exact ⟨rfl, rfl, rfl, rfl, rfl, .inr rfl⟩

/-- A flight after a command is the one before it, or has just started. -/
theorem exec_vmul {i : Instr} {s t : State} (h : exec i s = .next t) :
    t.vmul = s.vmul ∨ ∃ v, t.vmul = some v ∧ v.index = 0 ∧ v.fetched = none ∧ (v.len ≠ 0 → v.count = v.len.toNat) := by
  cases hd : i.dest with
  | none =>
    obtain ⟨rd, ra, rb, rc, rfl⟩ := eq_vmul_of_dest_none hd
    obtain ⟨v, m, n, hv, -, -, -, -, hindex, hfetched, hcount⟩ := execVmul_next rd ra rb rc s
    cases hv.symm.trans h
    exact .inr ⟨v, rfl, hindex, hfetched, hcount⟩
  | some rd =>
    obtain ⟨v, rfl | rfl⟩ := exec_next_of_dest hd h <;> exact .inl rfl

/-! A host read leaves all but the answers and the marks as they are (R33). -/

@[simp] theorem readPort_ill (p : Port) (s : State) : (readPort p s).ill = s.ill := by cases p <;> rfl
@[simp] theorem readPort_vmul (p : Port) (s : State) : (readPort p s).vmul = s.vmul := by cases p <;> rfl
@[simp] theorem readPort_sinRom (p : Port) (s : State) : (readPort p s).sinRom = s.sinRom := by cases p <;> rfl
@[simp] theorem readPort_mem (p : Port) (s : State) : (readPort p s).mem = s.mem := by cases p <;> rfl
@[simp] theorem readPort_backed (p : Port) (s : State) : (readPort p s).backed = s.backed := by cases p <;> rfl
@[simp] theorem readPort_cix (p : Port) (s : State) : (readPort p s).cix = s.cix := by cases p <;> rfl
@[simp] theorem readPort_host (p : Port) (s : State) : (readPort p s).host = s.host := by cases p <;> rfl

/-- The block's own step changes memory only by the write of a flight, and retires at most one command. -/
theorem blockStep_mem_cix {s t : State} (h : blockStep s = .next t) :
    (t.mem = s.mem ∨ s.busy = true ∧ ∃ a v, t.mem = s.mem.writeWord a v) ∧ (t.cix = s.cix ∨ t.cix = s.cix + 1) := by
  rcases blockStep_next h with ⟨-, rfl⟩ | ⟨v, hv, hacc⟩
  · exact ⟨.inl rfl, .inl rfl⟩
  · rcases vmulAccess_next hacc with ⟨e, -, -, rfl⟩ | ⟨-, -, -, rfl⟩ | ⟨-, -, rfl⟩
    · exact ⟨.inr ⟨s.busy_iff.mpr ⟨v, hv⟩, _, _, rfl⟩, .inl rfl⟩
    · exact ⟨.inl rfl, .inl rfl⟩
    · exact ⟨.inl rfl, .inr rfl⟩

/-! ## The parts of the state over one event -/

namespace Event

variable {s t : State}

/-- ILL over one event: as before, or cleared by reset, or set by an illegal word, which marks the run (R28, R161, R167). -/
theorem ill_cases (h : Event s t) :
    t.ill = s.ill ∨ (t.ill = false ∧ s.host.head? = some .reset) ∨
      (t.ill = true ∧ t.marks.illegalWord = true ∧
        ∃ w why, s.host.head? = some (.writePort .cmd w) ∧ decodeWord w = .illegal why) := by
  cases h with
  | block rest _ h => obtain ⟨-, -, hill, -⟩ := blockStep_frame h; exact .inl hill
  | command w i rest _ h => obtain ⟨hill, -⟩ := exec_frame h; exact .inl hill
  | illegal w why rest hhost hw ht => exact .inr (.inr ⟨by simp [ht], by simp [ht], w, why, by simp [hhost], hw⟩)
  | reset rest hhost ht => exact .inr (.inl ⟨by simp [ht], by simp [hhost]⟩)
  | readPort | writeReg | writeStatus | readMem | writeMem => simp [*]

/-- The ROM and the map of memory are the same after every event (R30, R36). -/
theorem rom_and_backed_eq (h : Event s t) : t.sinRom = s.sinRom ∧ t.backed = s.backed := by
  cases h with
  | block rest _ h => obtain ⟨-, -, -, hrom, hbacked, -⟩ := blockStep_frame h; exact ⟨hrom, hbacked⟩
  | command w i rest _ h => obtain ⟨-, hrom, -, hbacked, -⟩ := exec_frame h; exact ⟨hrom, hbacked⟩
  | readPort | writeReg | illegal | writeStatus | readMem | writeMem | reset => simp [*]

/-- Memory over one event: as before, or one word written, by a flight or by the host (R31, R40). -/
theorem mem_cases (h : Event s t) :
    t.mem = s.mem ∨ (∃ a v, t.mem = s.mem.writeWord a v) ∧
      (s.busy = true ∨ ∃ a v, s.host.head? = some (.writeMem a v)) := by
  cases h with
  | block rest _ h => exact (blockStep_mem_cix h).1.imp_right fun ⟨hbusy, hwrite⟩ => ⟨hwrite, .inl hbusy⟩
  | command w i rest _ h => obtain ⟨-, -, hmem, -⟩ := exec_frame h; exact .inl hmem
  | writeMem a v rest hhost ht => exact .inr ⟨⟨a, v, by rw [ht]⟩, .inr ⟨a, v, by simp [hhost]⟩⟩
  | readPort | writeReg | illegal | writeStatus | readMem | reset => simp [*]

/-- An event takes at most the first action off the host's list (R34, R37). -/
theorem host_cases (h : Event s t) : t.host = s.host ∨ ∃ a, s.host = a :: t.host := by
  cases h with
  | block rest hhost h =>
    obtain ⟨-, -, -, -, -, -, hrest, -⟩ := blockStep_frame h
    rw [hrest]
    exact hhost.imp Eq.symm fun hwait => ⟨_, hwait⟩
  | command w i rest hhost h => obtain ⟨-, -, -, -, hrest, -⟩ := exec_frame h; exact .inr ⟨_, by rw [hrest]; exact hhost⟩
  | readPort | writeReg | illegal | writeStatus | readMem | writeMem | reset => simp [*]

/-- Short of reset, an event retires at most one command (R24). -/
theorem cix_cases (h : Event s t) (hreset : s.host.head? ≠ some .reset) : t.cix = s.cix ∨ t.cix = s.cix + 1 := by
  cases h with
  | block rest _ h => exact (blockStep_mem_cix h).2
  | command w i rest _ h => obtain ⟨-, -, -, -, -, hcix⟩ := exec_frame h; exact hcix
  | reset rest hhost _ => simp [hhost] at hreset
  | readPort | writeReg | illegal | writeStatus | readMem | writeMem => simp [*]

/-- The flight over one event: as before, at its next access, just started, or none. -/
theorem vmul_cases (h : Event s t) :
    t.vmul = s.vmul ∨ t.vmul = none ∨
      (∃ v rest, s.vmul = some v ∧ vmulAccess v { s with host := rest } = .next t) ∨
      ∃ v, t.vmul = some v ∧ v.index = 0 ∧ v.fetched = none ∧ (v.len ≠ 0 → v.count = v.len.toNat) := by
  cases h with
  | block rest _ h =>
    rcases blockStep_next h with ⟨-, rfl⟩ | ⟨v, hv, hacc⟩
    · exact .inl rfl
    · exact .inr (.inr (.inl ⟨v, rest, hv, hacc⟩))
  | command w i rest _ h => exact (exec_vmul h).imp_right fun hstart => .inr (.inr hstart)
  | readPort | writeReg | illegal | writeStatus | readMem | writeMem | reset => simp [*]

end Event

/-! ## The invariant -/

/-- A flight that has just started is consistent. -/
theorem VmulFlight.Consistent.of_start {v : VmulFlight} (hindex : v.index = 0) (hfetched : v.fetched = none)
    (hcount : v.len ≠ 0 → v.count = v.len.toNat) : v.Consistent :=
  ⟨by simp [hindex], by simp [hfetched], hcount⟩

/-- The next access of a consistent flight leaves it consistent, or ends it (R47). -/
theorem VmulFlight.Consistent.of_access {v v' : VmulFlight} {s t : State} (hv : v.Consistent)
    (h : vmulAccess v s = .next t) (ht : t.vmul = some v') : v'.Consistent := by
  obtain ⟨-, hfetched, hcount⟩ := hv
  rcases vmulAccess_next h with ⟨e, he, -, rfl⟩ | ⟨-, hlt, -, rfl⟩ | ⟨-, -, rfl⟩
  · cases ht
    exact ⟨hfetched (by simp [he]), by simp, hcount⟩
  · cases ht
    exact ⟨Nat.le_of_lt hlt, fun _ => hlt, hcount⟩
  · cases ht

theorem Event.wf {s t : State} (h : Event s t) (hwf : s.mem.wf = true) : t.mem.wf = true := by
  rcases h.mem_cases with hmem | ⟨⟨a, v, hmem⟩, -⟩
  · rwa [hmem]
  · rw [hmem]; exact Memory.wf_writeWord hwf

theorem Event.consistent {s t : State} (h : Event s t) (hs : ∀ v, s.vmul = some v → v.Consistent) :
    ∀ v, t.vmul = some v → v.Consistent := by
  intro v hv
  rcases h.vmul_cases with hsame | hnone | ⟨u, rest, hu, hacc⟩ | ⟨u, hu, hindex, hfetched, hcount⟩
  · exact hs v (hsame ▸ hv)
  · cases hnone.symm.trans hv
  · exact (hs u hu).of_access hacc hv
  · cases hu.symm.trans hv
    exact .of_start hindex hfetched hcount

/-- ILL stays 1 only beside its mark: an event keeps the mark, sets both, or clears ILL (R162). -/
theorem ill_marked_of_step {s t : State} (h : step s = .next t) (hs : s.ill = true → s.marks.illegalWord = true)
    (ht : t.ill = true) : t.marks.illegalWord = true := by
  obtain ⟨hkept, -⟩ := step_keeps_marks h
  rcases (Event.of_step h).ill_cases with hsame | ⟨hclear, -⟩ | ⟨-, hmark, -⟩
  · exact hkept (hs (hsame ▸ ht))
  · cases hclear.symm.trans ht
  · exact hmark

/-- Settles O56: each of the invariant's four parts over one event. -/
theorem stepKeepsTheInvariant : Obligations.StepKeepsTheInvariant := by
  intro s t ⟨hwf, hflight, hrom, hill⟩ hstep
  have hevent : Event s t := .of_step hstep
  have hromT : romRead t 1 = 0 := by rw [romRead, hevent.rom_and_backed_eq.1]; exact hrom
  exact ⟨hevent.wf hwf, hevent.consistent hflight, hromT, ill_marked_of_step hstep hill⟩

/-- Settles O55: the ROM word is the one entry of the table that is not open. -/
theorem resetMeetsTheInvariant : Obligations.ResetMeetsTheInvariant := by
  have hrom : romRead State.reset 1 = 0 := by simp [romRead, State.reset, Config.sinRom]
  exact ⟨rfl, by simp [State.reset], hrom, by simp [State.reset]⟩

/-! ## What every step keeps -/

/-- Settles O38: of what an event can do to ILL, only reset clears it. -/
theorem illStaysUntilReset : Obligations.IllStaysUntilReset := by
  intro s t hstep hill hreset
  rcases (Event.of_step hstep).ill_cases with hsame | ⟨-, hhead⟩ | ⟨hset, -⟩
  · exact hsame.trans hill
  · exact absurd hhead hreset
  · exact hset

/-- Settles O39: of what an event can do to ILL, only an illegal word sets it. -/
theorem onlyIllegalWordsSetIll : Obligations.OnlyIllegalWordsSetIll := by
  intro s t hstep hclear hset
  rcases (Event.of_step hstep).ill_cases with hsame | ⟨hfalse, -⟩ | ⟨-, -, hword⟩
  · simp [hsame, hclear] at hset
  · simp [hfalse] at hset
  · exact hword

/-- Settles O57, from the events' frame. -/
theorem romAndMemoryMapAreConstant : Obligations.RomAndMemoryMapAreConstant :=
  fun _ _ hstep => (Event.of_step hstep).rom_and_backed_eq

/-- Settles O58: a changed memory leaves only the case of a written word. -/
theorem onlyHostWritesAndFlightsChangeMemory : Obligations.OnlyHostWritesAndFlightsChangeMemory := by
  intro s t hstep hne
  obtain ⟨-, hcause⟩ := (Event.of_step hstep).mem_cases.resolve_left hne
  exact hcause

/-- Settles O59: an event takes one action off at most and retires one command at most. -/
theorem eventsComeOneAtATime : Obligations.EventsComeOneAtATime :=
  fun _ _ hstep => ⟨(Event.of_step hstep).host_cases, (Event.of_step hstep).cix_cases⟩

end Sys2Proof.Machine
end

section
/-! PROOF. The host's port, the stall rule, the issue of a command word and reset (spec/10_state.md R22 to R26, R33 to R35,
spec/70_reset_and_hazards.md R180), each as the step of the host's next action. -/

namespace Sys2Proof.Machine

open Sys2Proof.Claims

/-! ## The next host action -/

/-- On an idle block nothing waits: the host's next action takes effect (R34). -/
theorem step_of_host_idle {s : State} {a : HostAction} {rest : List HostAction} (h : s.host = a :: rest)
    (hidle : s.busy = false) : step s = performHost a { s with host := rest } :=
  step_of_host h (by simp [hidle])

/-- A host action that never waits takes effect, busy or not (R34). -/
theorem step_of_host_unstalled {s : State} {a : HostAction} {rest : List HostAction} (h : s.host = a :: rest)
    (ha : a.stalls = false) : step s = performHost a { s with host := rest } :=
  step_of_host h (by simp [ha])

/-- A legal word is executed as the command it decodes to (R25, R62). -/
theorem issue_of_command {w : Word} {i : Instr} (hw : decodeWord w = .command i) (s : State) : issue w s = exec i s := by
  simp [issue, hw]

/-- The reader of the opcode table reads a command exactly where the decoder does (R60, R62). -/
theorem decodeTableWord_eq_some {nbits w : Nat} {i : Instr} (h : decodeTableWord nbits w = some i) :
    decodeWord (BitVec.ofNat 32 (w % 2 ^ nbits)) = .command i := by
  unfold decodeTableWord at h
  split at h
  · next hw => cases h; exact hw
  · cases h

/-- Settles O40: the write to CMD does not wait on an idle block, and issuing a legal word is executing its command. -/
theorem stepRunsTheDecodedCommand : Obligations.StepRunsTheDecodedCommand := by
  have hrun : ∀ (s : State) (w : Word) (i : Instr) (rest : List HostAction), decodeWord w = .command i →
      s.busy = false → s.host = .writePort .cmd w :: rest → step s = exec i { s with host := rest } := by
    intro s w i rest hw hidle hhost
    rw [step_of_host_idle hhost hidle]
    exact issue_of_command hw _
  exact ⟨hrun, fun s nbits w i h => hrun (s.withFetchWord nbits w) _ i s.host (decodeTableWord_eq_some h) rfl rfl⟩

/-- Settles O41: the three accesses are the ones that stall, and the block's own step touches neither the host's list nor a
register. -/
theorem stallingAccessWaitsForTheBlock : Obligations.StallingAccessWaitsForTheBlock := by
  intro s a rest hhost hbusy ha
  have hstalls : a.stalls = true := by
    rcases ha with ⟨r, rfl⟩ | ⟨r, w, rfl⟩ | ⟨w, rfl⟩ <;> rfl
  have hstep : step s = blockStep s := step_of_stall hhost hbusy hstalls
  refine ⟨hstep, fun t ht => ?_⟩
  obtain ⟨hregs, -, -, -, -, -, hlist, -⟩ := blockStep_frame (hstep.symm.trans ht)
  exact ⟨hlist, hregs⟩

/-- Settles O43: on an idle block neither access waits, and each is its port operation. -/
theorem hostReadsAndWritesRegisters : Obligations.HostReadsAndWritesRegisters :=
  fun _ _ _ _ hidle => ⟨fun hhost => step_of_host_idle hhost hidle, fun hhost => step_of_host_idle hhost hidle⟩

/-! ## STATUS -/

/-- STATUS bit by bit: BUSY, ILL, and zero above (R26). -/
theorem State.statusWord_getLsbD (s : State) (k : Nat) :
    s.statusWord.getLsbD k = if k = 0 then s.busy else if k = 1 then s.ill else false := by
  unfold State.statusWord
  match k with
  | 0 => cases s.ill <;> cases s.busy <;> rfl
  | 1 => cases s.ill <;> cases s.busy <;> rfl
  | k + 2 => simp

/-- An idle block on which no illegal word stands has STATUS 0 (R26). -/
theorem State.statusWord_eq_zero {s : State} (hbusy : s.busy = false) (hill : s.ill = false) : s.statusWord = 0 := by
  simp [State.statusWord, hbusy, hill]

/-- Settles O44: none of the three accesses stalls. -/
theorem cmdAndStatusPorts : Obligations.CmdAndStatusPorts := by
  intro s w rest
  refine ⟨fun hhost => step_of_host_unstalled hhost rfl, fun hhost => ⟨s.statusWord, ?_, ?_, ?_, fun k hk => ?_⟩,
    fun hhost => step_of_host_unstalled hhost rfl⟩
  · exact step_of_host_unstalled hhost rfl
  · exact s.statusWord_getLsbD 0
  · exact s.statusWord_getLsbD 1
  · rw [s.statusWord_getLsbD, if_neg (by omega), if_neg (by omega)]

/-! ## Reset -/

/-- After reset every register counts as never written (R23, R35). -/
theorem reset_isWritten (r : Reg) : State.reset.isWritten r = false := by
  simp [State.isWritten, State.reset]

theorem State.applyReset_isWritten (s : State) (r : Reg) : s.applyReset.isWritten r = false := by
  rw [State.isWritten, State.applyReset_written]
  exact reset_isWritten r

/-- Settles O46: reset does not stall, and each clause reads one field of the state it makes. -/
theorem resetLeavesMemoryAndRom : Obligations.ResetLeavesMemoryAndRom := by
  intro s rest hhost
  exact ⟨State.applyReset { s with host := rest }, step_of_host_unstalled hhost rfl, State.applyReset_busy _,
    State.statusWord_eq_zero rfl rfl, rfl, State.applyReset_isWritten _, rfl, rfl, rfl, rfl, rfl, rfl⟩

/-- Settles O47, field by field. -/
theorem stateAfterReset : Obligations.StateAfterReset :=
  ⟨State.statusWord_eq_zero rfl rfl, rfl, reset_isWritten, rfl, rfl, rfl⟩

end Sys2Proof.Machine
end

section
/-! PROOF. The sine command (spec/45_sine.md R143), the start of a vector multiply (spec/42_arithmetic.md R114), and the flight it
starts: the accesses one by one, and the whole run as the element loop of spec/20_memory.md R47. -/

namespace Sys2Proof.Machine

open Sys2Proof.Claims

/-! ## The model's operations in the terms of the statements -/

/-- The state after a command with a 16-bit result (R17, R80). -/
theorem State.complete16_eq_afterWrite16 (s : State) (srcs : List Reg) (rd : Reg) (r : Half) :
    s.complete16 srcs rd r = afterWrite16 s srcs rd r := by
  unfold State.complete16 afterWrite16
  rw [zext32_eq_append]
  rfl

theorem seqAddr_eq_element (b : Half) (i : Nat) : seqAddr b i = element b i := by
  apply BitVec.eq_of_toNat_eq
  simp [seqAddr_toNat, element]

theorem mulq15q16_eq_scaled (a c : Half) : mulq15q16 a c = scaled a c := rfl

/-! ## The sine (R143) -/

/-- The two bytes of a 16-bit input, from its value (R142). -/
theorem upperByte_lowerByte_of_toNat {v : Half} {u f : Nat} (hf : f < 256) (h : v.toNat = 256 * u + f) :
    (upperByte v).toNat = u ∧ (lowerByte v).toNat = f := by
  have := v.isLt
  simp only [upperByte, lowerByte, BitVec.extractLsb'_toNat, Nat.shiftRight_eq_div_pow]
  omega

/-- Settles O17: the two bytes of the input select the segment's ROM words and the position in it. -/
theorem sineEvaluatesItsSegment : Obligations.SineEvaluatesItsSegment := by
  intro s rd ra u f hu hf hsplit
  obtain ⟨hupper, hlower⟩ := upperByte_lowerByte_of_toNat hf hsplit
  rw [← State.complete16_eq_afterWrite16]
  simp only [exec, execSinQ15, evalSegment, sinSlope, sinIntercept, romRead, unsigned, State.xlo_eq_low, hupper, hlower]
  rfl

/-! ## The vector multiply -/

/-- Settles O18: a length other than zero takes the branch that latches it as the count. -/
theorem vectorMultiplyLatchesItsOperands : Obligations.VectorMultiplyLatchesItsOperands := by
  intro s rd ra rb rc hlen
  simp only [exec, execVmulQ15Q16, if_neg hlen, State.xlo_eq_low]
  rfl

/-- Settles O48: with the host silent the step is the flight's next access. -/
theorem vectorMultiplyTakesOneAccessAStep : Obligations.VectorMultiplyTakesOneAccessAStep := by
  intro s v hv hhost
  simp only [← seqAddr_eq_element, ← mulq15q16_eq_scaled]
  exact ⟨fun hfetched hlt hvalid => step_of_flight hv hhost (vmulAccess_read hfetched hlt hvalid),
    fun e hfetched hvalid => step_of_flight hv hhost (vmulAccess_write hfetched hvalid),
    fun hfetched hle => step_of_flight hv hhost (vmulAccess_end hfetched hle)⟩

/-- Memory after the next element of a flight (R47). -/
def VmulFlight.elementWritten (v : VmulFlight) (m : Memory) : Memory :=
  m.writeWord (element v.dst v.index) (scaled (m.readWord (element v.src v.index)) v.scalar)

/-- One element of a flight is two steps: the read of its source word and the write of its destination word (R47). -/
theorem run_element {s : State} {v : VmulFlight} (k : Nat) (hv : s.vmul = some v) (hhost : s.host = [])
    (hfetched : v.fetched = none) (hlt : v.index < v.count) (hsrc : s.memValid (element v.src v.index) = true)
    (hdst : s.memValid (element v.dst v.index) = true) :
    Sys2Proof.core.run (k + 2) s =
      Sys2Proof.core.run k { s with mem := v.elementWritten s.mem, vmul := some { v with index := v.index + 1 } } := by
  obtain ⟨hread, -, -⟩ := vectorMultiplyTakesOneAccessAStep s v hv hhost
  rw [run_succ_of_step _ (hread hfetched hlt hsrc)]
  obtain ⟨-, hwrite, -⟩ := vectorMultiplyTakesOneAccessAStep
    { s with vmul := some { v with fetched := some (s.mem.readWord (element v.src v.index)) } } _ rfl hhost
  rw [run_succ_of_step _ (hwrite _ rfl hdst), ← hfetched]
  rfl

/-- A flight with `n` elements left computes `n` rounds of the loop and ends, by induction on `n`. -/
theorem run_flight (n : Nat) {s : State} {v : VmulFlight} (hv : s.vmul = some v) (hhost : s.host = [])
    (hfetched : v.fetched = none) (hcount : v.count = v.index + n)
    (hvalid : ∀ i, v.index ≤ i → i < v.count →
      s.memValid (element v.src i) = true ∧ s.memValid (element v.dst i) = true) :
    Sys2Proof.core.run (2 * n + 1) s =
      .next { s with vmul := none, cix := s.cix + 1, mem := loop v.dst v.src v.scalar v.index n s.mem } := by
  induction n generalizing s v with
  | zero =>
    obtain ⟨-, -, hend⟩ := vectorMultiplyTakesOneAccessAStep s v hv hhost
    rw [run_succ_of_step _ (hend hfetched (by omega))]
    rfl
  | succ n ih =>
    obtain ⟨hsrc, hdst⟩ := hvalid v.index le_rfl (by omega)
    have hnext := run_element (2 * n + 1) hv hhost hfetched (by omega) hsrc hdst
    have hrest := ih (s := { s with mem := v.elementWritten s.mem, vmul := some { v with index := v.index + 1 } })
      rfl hhost hfetched (by simp only; omega) (fun i hle hlt => hvalid i (Nat.le_of_succ_le hle) hlt)
    exact hnext.trans hrest

/-- Settles O50: `run_flight` with the elements the flight has left. -/
theorem vectorMultiplyRunsTheLoop : Obligations.VectorMultiplyRunsTheLoop :=
  fun _ v hv hhost hfetched hle hvalid =>
    run_flight (v.count - v.index) hv hhost hfetched (Nat.add_sub_of_le hle).symm hvalid

end Sys2Proof.Machine
end

section
/-! PROOF. Data memory as commands and host meet it (spec/20_memory.md R40 to R57): an access to a word that is not backed,
a host access to a backed one, the bytes a flight leaves alone, and a host write moved over a flight's access. -/

namespace Sys2Proof.Machine

open Sys2Proof.Claims

/-! ## The memory port and a flight's access, from what is backed -/

theorem memRead_of_backed {s : State} {a : Half} (h : s.memValid a = true) : memRead s a = .ok (s.mem.readWord a) := by
  simp [memRead, h]

theorem memRead_of_unbacked {s : State} {a : Half} (h : s.memValid a = false) :
    memRead s a = .error (.unbackedAccess a s.marks) := by
  simp [memRead, h]

theorem memWrite_of_unbacked {s : State} {a v : Half} (h : s.memValid a = false) :
    memWrite s a v = .error (.unbackedAccess a s.marks) := by
  simp [memWrite, h]

/-- The read access of a flight sticks at an unbacked source word (R43, R47). -/
theorem vmulAccess_read_unbacked {v : VmulFlight} {s : State} (hfetched : v.fetched = none) (hlt : v.index < v.count)
    (h : s.memValid (seqAddr v.src v.index) = false) :
    vmulAccess v s = .fault (.unbackedAccess (seqAddr v.src v.index) s.marks) := by
  simp [vmulAccess, hfetched, hlt, memRead_of_unbacked h]

/-- The write access of a flight sticks at an unbacked destination word (R43, R47). -/
theorem vmulAccess_write_unbacked {v : VmulFlight} {s : State} {e : Half} (hfetched : v.fetched = some e)
    (h : s.memValid (seqAddr v.dst v.index) = false) :
    vmulAccess v s = .fault (.unbackedAccess (seqAddr v.dst v.index) s.marks) := by
  simp [vmulAccess, hfetched, memWrite_of_unbacked h]

/-- During a flight the block's own step is the flight's next access (R37). -/
theorem blockStep_of_flight {s : State} {v : VmulFlight} (hv : s.vmul = some v) : blockStep s = vmulAccess v s := by
  simp [blockStep, hv]

/-- Settles O52: with the host silent the step is the flight's access, which sticks at the unbacked word. -/
theorem vectorMultiplySticksOnUnbackedWord : Obligations.VectorMultiplySticksOnUnbackedWord := by
  intro s v hv hhost
  have hstep : step s = vmulAccess v s := (step_of_host_nil hhost).trans (blockStep_of_flight hv)
  simp only [← seqAddr_eq_element, hstep]
  exact ⟨vmulAccess_read_unbacked, fun _ => vmulAccess_write_unbacked⟩

/-! ## The table look-up (R134, R43) -/

/-- A look-up whose first word is not backed sticks there. -/
theorem execLutQ15_first_unbacked {rd ra rb : Reg} {s : State}
    (h : s.memValid (seqAddr (s.xlo ra) (upperByte (s.xlo rb)).toNat) = false) :
    exec (.lutQ15 rd ra rb) s =
      .fault (.unbackedAccess (seqAddr (s.xlo ra) (upperByte (s.xlo rb)).toNat) (readMarks s [ra, rb])) := by
  simp only [exec, execLutQ15]
  rw [memRead_of_unbacked (s := s.noteReads [ra, rb]) h]
  rfl

/-- A look-up whose first word is backed and whose second is not sticks at the second. -/
theorem execLutQ15_second_unbacked {rd ra rb : Reg} {s : State}
    (h1 : s.memValid (seqAddr (s.xlo ra) (upperByte (s.xlo rb)).toNat) = true)
    (h2 : s.memValid (seqAddr (s.xlo ra) ((upperByte (s.xlo rb)).toNat + 1)) = false) :
    exec (.lutQ15 rd ra rb) s =
      .fault (.unbackedAccess (seqAddr (s.xlo ra) ((upperByte (s.xlo rb)).toNat + 1)) (readMarks s [ra, rb])) := by
  simp only [exec, execLutQ15]
  rw [memRead_of_backed (s := s.noteReads [ra, rb]) h1]
  simp only [memRead_of_unbacked (s := s.noteReads [ra, rb]) h2]
  rfl

/-- Settles O16: table[idx] is read first, so the fault names it whenever it is not backed, and table[idx+1] otherwise. -/
theorem tableLookUpSticksOnUnbackedWord : Obligations.TableLookUpSticksOnUnbackedWord := by
  intro s rd ra rb idx w hw hsplit hunbacked
  obtain ⟨hupper, -⟩ := upperByte_lowerByte_of_toNat hw hsplit
  rw [← State.xlo_eq_low] at hupper
  simp only [← seqAddr_eq_element, ← State.xlo_eq_low, ← hupper] at hunbacked ⊢
  cases hfirst : s.memValid (seqAddr (s.xlo ra) (upperByte (s.xlo rb)).toNat) with
  | false => exact ⟨_, .inl rfl, hfirst, execLutQ15_first_unbacked hfirst⟩
  | true =>
    have hsecond := hunbacked.resolve_left (by simp [hfirst])
    exact ⟨_, .inr rfl, hsecond, execLutQ15_second_unbacked hfirst hsecond⟩

/-! ## Host accesses to data memory (R52) -/

theorem performHost_readMem_of_backed {s : State} {a : Half} (h : s.memValid a = true) :
    performHost (.readMem a) s = .next { s with answers := .mem a (s.mem.readWord a) :: s.answers } := by
  simp [performHost, h]

theorem performHost_writeMem_of_backed {s : State} {a v : Half} (h : s.memValid a = true) :
    performHost (.writeMem a v) s = .next { s with mem := s.mem.writeWord a v } := by
  simp [performHost, h]

/-- A word write leaves every byte outside its word as it was (R42). -/
theorem Memory.readByte_writeWord_of_ne {m : Memory} (hm : m.wf = true) {a v : Half} {k : Nat} (hlow : k ≠ 2 * a.toNat)
    (hhigh : k ≠ 2 * a.toNat + 1) : (m.writeWord a v).readByte k = m.readByte k := by
  rw [Memory.readByte_writeWord hm, if_neg hlow, if_neg hhigh]

/-- Settles O45: neither access stalls, and the write is one word write. -/
theorem hostReadsAndWritesMemory : Obligations.HostReadsAndWritesMemory := by
  intro s a v rest hvalid hwf
  refine ⟨fun hhost => ?_, fun hhost => ⟨s.mem.writeWord a v, ?_, ?_, fun k hlow hhigh => ?_⟩⟩
  · exact (step_of_host_unstalled hhost rfl).trans (performHost_readMem_of_backed hvalid)
  · exact (step_of_host_unstalled hhost rfl).trans (performHost_writeMem_of_backed hvalid)
  · rw [Memory.readWord_writeWord hwf, if_pos rfl]
  · exact Memory.readByte_writeWord_of_ne hwf hlow hhigh

/-! ## A flight's access and the rest of memory (R47, R186) -/

/-- The bytes of memory over one access of a flight: only the write of an element changes any, those of its word. -/
theorem vmulAccess_readByte {v : VmulFlight} {s t : State} (hwf : s.mem.wf = true) (h : vmulAccess v s = .next t) {k : Nat}
    (hk : v.fetched ≠ none → k ≠ 2 * (seqAddr v.dst v.index).toNat ∧ k ≠ 2 * (seqAddr v.dst v.index).toNat + 1) :
    t.mem.readByte k = s.mem.readByte k := by
  rcases vmulAccess_next h with ⟨e, he, -, rfl⟩ | ⟨-, -, -, rfl⟩ | ⟨-, -, rfl⟩
  · obtain ⟨hlow, hhigh⟩ := hk (by simp [he])
    exact Memory.readByte_writeWord_of_ne hwf hlow hhigh
  · rfl
  · rfl

/-- Settles O49: the bytes from the access, the other fields from the frame of the block's own step. -/
theorem vectorMultiplyAccessFrame : Obligations.VectorMultiplyAccessFrame := by
  intro s t v hv hwf h
  simp only [← seqAddr_eq_element]
  exact ⟨fun k hk => vmulAccess_readByte hwf ((blockStep_of_flight hv).symm.trans h) hk, blockStep_frame h⟩

/-- A write that keeps the hazard rule goes to no word of the flight's sequences (R186). -/
theorem ne_seqAddr_of_not_racesWith {v : VmulFlight} {a x : Half} {i : Nat} (h : ¬RacesWith v (.writeMem a x))
    (hi : i < v.count) : a ≠ seqAddr v.src i ∧ a ≠ seqAddr v.dst i :=
  ⟨fun hsrc => h ⟨i, hi, .inl hsrc⟩, fun hdst => h ⟨i, hi, .inr hdst⟩⟩

/-- A write that keeps the hazard rule can be made before a flight's access instead of after it: the word read is another, and
so is the word written. -/
theorem vmulAccess_writeWord_comm {v : VmulFlight} {s t : State} {a x : Half} (hv : v.Consistent) (hwf : s.mem.wf = true)
    (hrace : ¬RacesWith v (.writeMem a x)) (h : vmulAccess v s = .next t) :
    vmulAccess v { s with mem := s.mem.writeWord a x } = .next { t with mem := t.mem.writeWord a x } := by
  obtain ⟨-, hfetched, -⟩ := hv
  rcases vmulAccess_next h with ⟨e, he, hvalid, rfl⟩ | ⟨he, hlt, hvalid, rfl⟩ | ⟨he, hle, rfl⟩
  · obtain ⟨-, hdst⟩ := ne_seqAddr_of_not_racesWith hrace (hfetched (by simp [he]))
    rw [vmulAccess_write (s := { s with mem := s.mem.writeWord a x }) he hvalid, Memory.writeWord_comm hwf _ _ hdst]
  · obtain ⟨hsrc, -⟩ := ne_seqAddr_of_not_racesWith hrace hlt
    rw [vmulAccess_read (s := { s with mem := s.mem.writeWord a x }) he hlt hvalid, Memory.readWord_writeWord hwf,
      if_neg hsrc]
  · exact vmulAccess_end he hle

/-- Settles O54: the block's own step during a flight is an access, over which the write moves. -/
theorem hazardFreeHostWriteCommutes : Obligations.HazardFreeHostWriteCommutes := by
  intro s t v a x hv hconsistent hwf hrace h
  rw [blockStep_of_flight hv] at h
  exact (blockStep_of_flight (s := { s with mem := s.mem.writeWord a x }) hv).trans
    (vmulAccess_writeWord_comm hconsistent hwf hrace h)

end Sys2Proof.Machine
end

section
/-! PROOF. The opcode map row by row (spec/30_encoding.md R61 to R66): what a row's mask test says of a word, that the words it
passes are the words of its commands, and that decoding and encoding are inverse to each other. -/

namespace Sys2Proof

open Sys2Proof.Claims

/-! ## The words of the two formats, and the mask tests that find them -/

/-- The format-R word of a command that uses the first `n` register fields; the others are zero (R61, R66). -/
def registerWord (op : BitVec 8) (n : Nat) (f : Fields) : Word :=
  encodeR op f.rd f.ra (if n < 3 then 0 else f.rb) (if n < 4 then 0 else f.rc)

/-- The mask of a format-R row whose command uses the first `n` register fields (R63). -/
def registerMask (n : Nat) : Word :=
  if n < 3 then 0xFF00FFFF else if n < 4 then 0xFF000FFF else 0xFF0000FF

theorem registerWord_and_mask (op : BitVec 8) (n : Nat) (f : Fields) :
    registerWord op n f &&& registerMask n = encodeR op 0 0 0 0 := by
  unfold registerWord registerMask
  by_cases h3 : n < 3
  · have h4 : n < 4 := by omega
    simp only [if_pos h3, if_pos h4, encodeR_mask2]
  · by_cases h4 : n < 4
    · simp only [if_neg h3, if_pos h4, encodeR_mask3]
    · simp only [if_neg h3, if_neg h4, encodeR_mask4]

/-- A word with a zero low byte and zero in the unused fields is the format-R word of its own fields. -/
theorem registerWord_fieldsOf {w : Word} {n : Nat} (hlow : w.extractLsb' 0 8 = 0) (hb : n < 3 → regField w 12 = 0)
    (hc : n < 4 → regField w 8 = 0) : registerWord (opcodeOf w) n (fieldsOf w) = w := by
  have hrb : (if n < 3 then 0 else regField w 12) = regField w 12 := ite_eq_right_iff.mpr fun h => (hb h).symm
  have hrc : (if n < 4 then 0 else regField w 8) = regField w 8 := ite_eq_right_iff.mpr fun h => (hc h).symm
  have hword := encodeR_fields hlow
  rwa [← hrb, ← hrc] at hword

/-- A register field that the mask keeps whole is the pattern's field, where the mask test passes. -/
theorem regField_of_mask {w mask pattern : Word} (h : w &&& mask = pattern) (start : Nat)
    (hm : mask.extractLsb' start 4 = BitVec.allOnes 4) : regField w start = regField pattern start :=
  congrArg BitVec.toFin (slice_of_mask h start 4 hm)

theorem registerMask_slices (n : Nat) :
    (registerMask n).extractLsb' 24 8 = BitVec.allOnes 8 ∧ (registerMask n).extractLsb' 0 8 = BitVec.allOnes 8 ∧
      (n < 3 → (registerMask n).extractLsb' 12 4 = BitVec.allOnes 4) ∧
      (n < 4 → (registerMask n).extractLsb' 8 4 = BitVec.allOnes 4) := by
  unfold registerMask
  split
  · exact ⟨rfl, rfl, fun _ => rfl, fun _ => rfl⟩
  · split
    · next h3 _ => exact ⟨rfl, rfl, fun h => absurd h h3, fun _ => rfl⟩
    · next h3 h4 => exact ⟨rfl, rfl, fun h => absurd h h3, fun h => absurd h h4⟩

theorem encodeR_zero_slices (op : BitVec 8) :
    (encodeR op 0 0 0 0).extractLsb' 0 8 = 0 ∧ regField (encodeR op 0 0 0 0) 12 = 0 ∧
      regField (encodeR op 0 0 0 0) 8 = 0 := by
  obtain ⟨-, -, hrb, hrc⟩ := fieldsOf_encodeR op 0 0 0 0
  refine ⟨?_, hrb, hrc⟩
  apply BitVec.eq_of_toNat_eq
  rw [slice_toNat, encodeR_toNat]
  simp only [BitVec.ofNat_eq_ofNat, BitVec.toNat_ofNat, Fin.val_zero]
  omega

/-- The mask test of a format-R row: its opcode, a zero low byte, and zero in every field its command does not use. -/
theorem and_registerMask_iff {w : Word} {op : BitVec 8} {n : Nat} :
    w &&& registerMask n = encodeR op 0 0 0 0 ↔
      opcodeOf w = op ∧ w.extractLsb' 0 8 = 0 ∧ (n < 3 → regField w 12 = 0) ∧ (n < 4 → regField w 8 = 0) := by
  constructor
  · intro h
    obtain ⟨hop, hlow, hb, hc⟩ := registerMask_slices n
    obtain ⟨hlow0, hb0, hc0⟩ := encodeR_zero_slices op
    exact ⟨(slice_of_mask h 24 8 hop).trans (opcodeOf_encodeR op 0 0 0 0), (slice_of_mask h 0 8 hlow).trans hlow0,
      fun hn => (regField_of_mask h 12 (hb hn)).trans hb0, fun hn => (regField_of_mask h 8 (hc hn)).trans hc0⟩
  · rintro ⟨rfl, hlow, hb, hc⟩
    have hmask := registerWord_and_mask (opcodeOf w) n (fieldsOf w)
    rwa [registerWord_fieldsOf hlow hb hc] at hmask

/-- The mask test of the format-I row: its opcode and a zero nibble. -/
theorem and_immediateMask_iff {w : Word} :
    w &&& 0xFF0F0000 = 0x01000000 ↔ opcodeOf w = 0x01 ∧ w.extractLsb' 16 4 = 0 := by
  constructor
  · intro h
    exact ⟨slice_of_mask h 24 8 rfl, slice_of_mask h 16 4 rfl⟩
  · rintro ⟨hop, hzero⟩
    have hmask := encodeI_mask (regField w 20) (w.extractLsb' 0 16)
    rwa [← hop, encodeI_fields hzero] at hmask

/-! ## The rows of the opcode map -/

/-- The row of `LDI`, the one of format I. -/
def ldiRow : OpcodeRow := ⟨0x01, .i, 0x01000000, 0xFF0F0000, fun f => .ldi f.rd f.imm⟩

/-- `row` is a format-R row with the opcode and the number of used register fields that `p` gives. -/
structure OpcodeRow.IsRegisterRow (row : OpcodeRow) (p : Nat × Nat) : Prop where
  opcode_toNat : row.opcode.toNat = p.1
  pattern_eq : row.pattern = encodeR row.opcode 0 0 0 0
  mask_eq : row.mask = registerMask p.2
  encode_build : ∀ f, encode (row.build f) = registerWord row.opcode p.2 f

theorem opcodeRows_eq_cons : opcodeRows = ldiRow :: opcodeRows.tail := rfl

/-- Below `LDI` the opcode map is the list of format-R opcodes, row by row (R63). -/
theorem registerRows : List.Forall₂ OpcodeRow.IsRegisterRow opcodeRows.tail registerFields := by
  repeat refine .cons ⟨rfl, rfl, rfl, fun _ => rfl⟩ ?_
  exact .nil

theorem exists_registerFields_of_row {row : OpcodeRow} (hrow : row ∈ opcodeRows.tail) :
    ∃ p ∈ registerFields, row.IsRegisterRow p := by
  obtain ⟨k, hk, rfl⟩ := List.mem_iff_getElem.mp hrow
  exact ⟨_, List.getElem_mem (registerRows.length_eq ▸ hk), registerRows.get hk _⟩

theorem exists_row_of_registerFields {p : Nat × Nat} (hp : p ∈ registerFields) :
    ∃ row ∈ opcodeRows, row.IsRegisterRow p := by
  obtain ⟨k, hk, rfl⟩ := List.mem_iff_getElem.mp hp
  have hk' : k < opcodeRows.tail.length := registerRows.length_eq ▸ hk
  exact ⟨_, List.mem_of_mem_tail (List.getElem_mem hk'), registerRows.get hk' hk⟩

/-- Every row of the opcode map is `LDI`'s or a format-R row. -/
theorem opcodeRow_cases {row : OpcodeRow} (hrow : row ∈ opcodeRows) :
    row = ldiRow ∨ ∃ p ∈ registerFields, row.IsRegisterRow p := by
  rw [opcodeRows_eq_cons] at hrow
  exact (List.mem_cons.mp hrow).imp_right exists_registerFields_of_row

theorem OpcodeRow.IsRegisterRow.match_iff {row : OpcodeRow} {p : Nat × Nat} (h : row.IsRegisterRow p) (w : Word) :
    w &&& row.mask = row.pattern ↔ opcodeOf w = row.opcode ∧ w.extractLsb' 0 8 = 0 ∧
      (p.2 < 3 → regField w 12 = 0) ∧ (p.2 < 4 → regField w 8 = 0) := by
  rw [h.mask_eq, h.pattern_eq, and_registerMask_iff]

/-- A word that passes a row's mask test has the row's opcode. -/
theorem opcode_of_match {row : OpcodeRow} (hrow : row ∈ opcodeRows) {w : Word} (h : w &&& row.mask = row.pattern) :
    row.opcode = opcodeOf w := by
  rcases opcodeRow_cases hrow with rfl | ⟨p, -, hp⟩
  · exact (and_immediateMask_iff.mp h).1.symm
  · exact ((hp.match_iff w).mp h).1.symm

/-- A word that passes a row's mask test is the encoding of the command that the row makes of it. -/
theorem encode_build_of_match {row : OpcodeRow} (hrow : row ∈ opcodeRows) {w : Word} (h : w &&& row.mask = row.pattern) :
    encode (row.build (fieldsOf w)) = w := by
  rcases opcodeRow_cases hrow with rfl | ⟨p, -, hp⟩
  · obtain ⟨hop, hzero⟩ := and_immediateMask_iff.mp h
    have hword := encodeI_fields hzero
    rwa [hop] at hword
  · obtain ⟨hop, hlow, hb, hc⟩ := (hp.match_iff w).mp h
    rw [hp.encode_build, ← hop, registerWord_fieldsOf hlow hb hc]

/-- The words a row's commands encode to pass the row's mask test. -/
theorem encode_build_match {row : OpcodeRow} (hrow : row ∈ opcodeRows) (f : Fields) :
    encode (row.build f) &&& row.mask = row.pattern := by
  rcases opcodeRow_cases hrow with rfl | ⟨p, -, hp⟩
  · exact encodeI_mask f.rd f.imm
  · rw [hp.encode_build, hp.mask_eq, hp.pattern_eq, registerWord_and_mask]

/-- No two rows have one opcode. -/
theorem opcodeRow_ext {row row' : OpcodeRow} (hrow : row ∈ opcodeRows) (hrow' : row' ∈ opcodeRows)
    (h : row.opcode = row'.opcode) : row = row' := by
  have hnodup : (opcodeRows.map OpcodeRow.opcode).Nodup := by decide
  exact List.inj_on_of_nodup_map hnodup hrow hrow' h

/-- Every command is what some row, found by the command's opcode, makes of the fields of the command's word: each operand is
read back (R61, R64, R65). -/
theorem exists_row_of_instr (i : Instr) : ∃ row ∈ opcodeRows, row.build (fieldsOf (encode i)) = i := by
  have hfind : ∃ row, opcodeRows.find? (fun row => row.opcode == i.opcode) = some row ∧
      row.build (fieldsOf (encode i)) = i := by
    cases i <;> exact ⟨_, rfl, by simp [encode]⟩
  obtain ⟨row, hrow, hbuild⟩ := hfind
  exact ⟨row, List.mem_of_find?_eq_some hrow, hbuild⟩

/-! ## The decoder -/

/-- Decoding a word of a known opcode is the mask test of its row (R62). -/
theorem decodeWord_of_opcode {row : OpcodeRow} (hrow : row ∈ opcodeRows) {w : Word} (hop : row.opcode = opcodeOf w) :
    decodeWord w =
      if w &&& row.mask = row.pattern then .command (row.build (fieldsOf w)) else .illegal (illegalCase row w) := by
  have hfind : opcodeRows.find? (fun r => r.opcode == opcodeOf w) = some row := by
    cases hr : opcodeRows.find? (fun r => r.opcode == opcodeOf w) with
    | none => exact absurd (beq_iff_eq.mpr hop) (List.find?_eq_none.mp hr row hrow)
    | some r =>
      have hr' : r.opcode = opcodeOf w := by simpa using List.find?_some hr
      rw [opcodeRow_ext (List.mem_of_find?_eq_some hr) hrow (hr'.trans hop.symm)]
  simp only [decodeWord, hfind]

theorem decodeWord_of_match {row : OpcodeRow} (hrow : row ∈ opcodeRows) {w : Word} (h : w &&& row.mask = row.pattern) :
    decodeWord w = .command (row.build (fieldsOf w)) := by
  rw [decodeWord_of_opcode hrow (opcode_of_match hrow h), if_pos h]

/-- A word is legal exactly when it passes the mask test of a row (R62). -/
theorem legal_iff_match (w : Word) :
    (∃ i, decodeWord w = .command i) ↔ ∃ row ∈ opcodeRows, w &&& row.mask = row.pattern := by
  constructor
  · rintro ⟨i, hi⟩
    obtain ⟨row, hrow, -, hmatch, -⟩ := decodeWord_command hi
    exact ⟨row, hrow, hmatch⟩
  · rintro ⟨row, hrow, hmatch⟩
    exact ⟨_, decodeWord_of_match hrow hmatch⟩

theorem illegal_iff_not_legal (w : Word) : (∃ why, decodeWord w = .illegal why) ↔ ¬∃ i, decodeWord w = .command i := by
  cases decodeWord w <;> simp

/-- Settles O1: the row whose command it is passes the word, and makes the command of the word's fields. -/
theorem decodeOfEncodeIsTheCommand : Obligations.DecodeOfEncodeIsTheCommand := by
  intro i
  obtain ⟨row, hrow, hbuild⟩ := exists_row_of_instr i
  have hmatch := encode_build_match hrow (fieldsOf (encode i))
  rw [hbuild] at hmatch
  rw [decodeWord_of_match hrow hmatch, hbuild]

/-- Settles O2: a legal word passed its row's mask test, which fixes every bit that is no operand's. -/
theorem legalWordIsItsCommandsEncoding : Obligations.LegalWordIsItsCommandsEncoding := by
  intro w i h
  obtain ⟨row, hrow, -, hmatch, rfl⟩ := decodeWord_command h
  exact encode_build_of_match hrow hmatch

theorem maskTable_eq_map : maskTable = opcodeRows.map fun row => (row.pattern, row.mask) := rfl

/-- Settles O3: the pairs are the rows' own, and two rows that pass one word have its opcode and so are one row. -/
theorem legalExactlyWhenARowMatches : Obligations.LegalExactlyWhenARowMatches := by
  refine ⟨fun w => ?_, fun w p hp q hq hwp hwq => ?_⟩
  · simp [legal_iff_match, maskTable_eq_map]
  · rw [maskTable_eq_map, List.mem_map] at hp hq
    obtain ⟨row, hrow, rfl⟩ := hp
    obtain ⟨row', hrow', rfl⟩ := hq
    rw [opcodeRow_ext hrow hrow' ((opcode_of_match hrow hwp).trans (opcode_of_match hrow' hwq).symm)]

/-! ## The cases of an illegal word, by the word's digits (R66) -/

theorem opcodeOf_toNat (w : Word) : (opcodeOf w).toNat = w.toNat / 2 ^ 24 := by
  rw [opcodeOf, slice_toNat]
  have := w.isLt
  omega

theorem slice_eq_zero_iff (w : Word) (start len : Nat) :
    w.extractLsb' start len = 0 ↔ w.toNat / 2 ^ start % 2 ^ len = 0 := by
  rw [← slice_toNat, ← BitVec.toNat_inj]
  rfl

theorem regField_eq_zero_iff (w : Word) (start : Nat) : regField w start = 0 ↔ w.toNat / 2 ^ start % 16 = 0 := by
  rw [← regField_val, Fin.ext_iff]
  rfl

/-- A legal word has one of the 24 opcodes; case (a). -/
theorem opcode_of_legal {w : Word} (h : ∃ i, decodeWord w = .command i) :
    w.toNat / 2 ^ 24 = 0x01 ∨ ∃ p ∈ registerFields, w.toNat / 2 ^ 24 = p.1 := by
  obtain ⟨row, hrow, hmatch⟩ := (legal_iff_match w).mp h
  rw [← opcodeOf_toNat, ← opcode_of_match hrow hmatch]
  rcases opcodeRow_cases hrow with rfl | ⟨p, hp, hreg⟩
  · exact .inl rfl
  · exact .inr ⟨p, hp, hreg.opcode_toNat⟩

/-- A word of a known opcode is legal exactly when it passes the mask test of its own row. -/
theorem legal_iff_of_opcode {row : OpcodeRow} (hrow : row ∈ opcodeRows) {w : Word} (hop : row.opcode = opcodeOf w) :
    (∃ i, decodeWord w = .command i) ↔ w &&& row.mask = row.pattern := by
  rw [decodeWord_of_opcode hrow hop]
  by_cases hm : w &&& row.mask = row.pattern <;> simp [hm]

/-- A word with a format-R opcode is legal exactly when neither (b) nor (c) is the case. -/
theorem legal_iff_of_registerFields {w : Word} {p : Nat × Nat} (hp : p ∈ registerFields) (hop : w.toNat / 2 ^ 24 = p.1) :
    (∃ i, decodeWord w = .command i) ↔
      w.toNat % 2 ^ 8 = 0 ∧ (p.2 < 3 → w.toNat / 2 ^ 12 % 16 = 0) ∧ (p.2 < 4 → w.toNat / 2 ^ 8 % 16 = 0) := by
  obtain ⟨row, hrow, hreg⟩ := exists_row_of_registerFields hp
  have hopcode : row.opcode = opcodeOf w :=
    BitVec.eq_of_toNat_eq (by rw [hreg.opcode_toNat, opcodeOf_toNat, hop])
  rw [legal_iff_of_opcode hrow hopcode, hreg.match_iff, slice_eq_zero_iff, regField_eq_zero_iff, regField_eq_zero_iff]
  simp [hopcode]

/-- A word with the opcode of `LDI` is legal exactly when (d) is not the case. -/
theorem legal_iff_of_ldi {w : Word} (hop : w.toNat / 2 ^ 24 = 0x01) :
    (∃ i, decodeWord w = .command i) ↔ w.toNat / 2 ^ 16 % 16 = 0 := by
  have hopcode : opcodeOf w = 0x01 := BitVec.eq_of_toNat_eq (by rw [opcodeOf_toNat, hop]; rfl)
  have hmem : ldiRow ∈ opcodeRows := opcodeRows_eq_cons ▸ List.mem_cons_self
  rw [legal_iff_of_opcode hmem hopcode.symm]
  exact and_immediateMask_iff.trans ((and_iff_right hopcode).trans (slice_eq_zero_iff w 16 4))

/-- Settles O4: by the word's opcode, which is none of the map's, `LDI`'s, or a format-R row's. -/
theorem illegalInExactlyFourCases : Obligations.IllegalInExactlyFourCases := by
  intro w
  rw [illegal_iff_not_legal]
  constructor
  · intro hill
    by_cases hldi : w.toNat / 2 ^ 24 = 0x01
    · exact .inr (.inr (.inr ⟨hldi, fun h => hill ((legal_iff_of_ldi hldi).mpr h)⟩))
    by_cases hreg : ∃ p ∈ registerFields, w.toNat / 2 ^ 24 = p.1
    · obtain ⟨p, hp, hop⟩ := hreg
      rw [legal_iff_of_registerFields hp hop] at hill
      by_cases hlow : w.toNat % 2 ^ 8 = 0
      · exact .inr (.inr (.inl ⟨p, hp, hop, by tauto⟩))
      · exact .inr (.inl ⟨p, hp, hop, hlow⟩)
    · exact .inl ⟨hldi, fun p hp hop => hreg ⟨p, hp, hop⟩⟩
  · rintro (⟨hldi, hreg⟩ | ⟨p, hp, hop, hlow⟩ | ⟨p, hp, hop, hfield⟩ | ⟨hldi, hzero⟩) hlegal
    · rcases opcode_of_legal hlegal with h | ⟨p, hp, hop⟩
      · exact hldi h
      · exact hreg p hp hop
    · exact hlow ((legal_iff_of_registerFields hp hop).mp hlegal).1
    · obtain ⟨-, hb, hc⟩ := (legal_iff_of_registerFields hp hop).mp hlegal
      rcases hfield with ⟨hn, hne⟩ | ⟨hn, hne⟩
      · exact hne (hb hn)
      · exact hne (hc hn)
    · exact hzero ((legal_iff_of_ldi hldi).mp hlegal)

/-- Settles O6, by running the decoder on the ten words. -/
theorem sampleWordsDecode : Obligations.SampleWordsDecode :=
  ⟨rfl, rfl, rfl, rfl, rfl, rfl, rfl, ⟨.unknownOpcode, rfl⟩, ⟨.unusedFieldSet, rfl⟩, ⟨.zero4Set, rfl⟩⟩

end Sys2Proof
end

section
/-! PROOF. The pseudo-command `LI32` (spec/30_encoding.md R69): its three commands and what they leave in its two registers. -/

namespace Sys2Proof.Machine

open Sys2Proof.Claims

theorem expandLi32_eq_halves (rd rt : Reg) (imm32 : Word) :
    expandLi32 rd rt imm32 = [.ldi rt (highHalf imm32), .ldi rd (lowHalf imm32), .pack rd rt rd] := rfl

/-- Loading the halves of a pattern into two registers and packing them gives the pattern back (R81, R84). -/
theorem runAll_ldi_ldi_pack (s : State) {rd rt : Reg} (h : rd ≠ rt) (p : Word) :
    ∃ t, runAll [.ldi rt (highHalf p), .ldi rd (lowHalf p), .pack rd rt rd] s = .next t ∧ t.x rd = p ∧
      t.x rt = zext32 (highHalf p) := by
  refine ⟨_, rfl, ?_, ?_⟩
  · simp [State.xlo, State.complete16_x, h]
  · simp [State.complete_x, State.complete16_x, h]

/-- Settles O34: the two immediates are the halves of the pattern, and packing them gives it back. -/
theorem pseudoCommandBuildsThePattern : Obligations.PseudoCommandBuildsThePattern := by
  intro s rd rt imm32 h
  rw [expandLi32_eq_halves, ← highHalf_eq_shift, ← lowHalf_eq_setWidth]
  exact ⟨rfl, runAll_ldi_ldi_pack s h imm32⟩

end Sys2Proof.Machine
end

section
/-! PROOF. The type-model commands (spec/40_type_model.md): the numbers their words and those of the other commands are, what
`LDI`, `HI`, `LO` and `PACK` move, that splitting and packing undo each other, and the frame of every command that writes a
register (R80). -/

namespace Sys2Proof

/-! ## Command words as sums (R61, R63) -/

/-- The word of a two-operand command: the fields it does not use add nothing. -/
theorem encodeR_toNat_two (op : BitVec 8) (rd ra : Reg) :
    (encodeR op rd ra 0 0).toNat = op.toNat * 2 ^ 24 + rd.val * 2 ^ 20 + ra.val * 2 ^ 16 := by
  simp [encodeR_toNat]

/-- The word of a three-operand command: the field it does not use adds nothing. -/
theorem encodeR_toNat_three (op : BitVec 8) (rd ra rb : Reg) :
    (encodeR op rd ra rb 0).toNat = op.toNat * 2 ^ 24 + rd.val * 2 ^ 20 + ra.val * 2 ^ 16 + rb.val * 2 ^ 12 := by
  simp [encodeR_toNat]

/-- Settles O5: each word is of the format and the number of operands that its row gives. -/
theorem commandWordsAreTheGivenSums : Obligations.CommandWordsAreTheGivenSums := by
  intro rd ra rb rc imm
  refine ⟨encodeI_toNat _ rd imm, ?hi, ?lo, ?pack, ?cvtQ15Q16N, ?cvtQ15Q16S, ?cvtQ16Q1516, ?cvtQ16Q15, ?cvtQ1516Q16, ?absQ15,
    ?mulQ15Q15, ?mulQ15Q16, ?mulQ15Q1616, ?mulQ16Q16, ?mulQ32Q16, ?mulQ32U16, ?mulQ1616Q16, ?mulQ1616U16, ?mulQ1616Q1616,
    ?vmulQ15Q16, ?divQ16Q16, ?interpQ15, ?lutQ15, ?sinQ15⟩
  case hi | lo | cvtQ15Q16N | cvtQ15Q16S | cvtQ16Q1516 | cvtQ16Q15 | cvtQ1516Q16 | absQ15 | sinQ15 =>
    exact encodeR_toNat_two _ rd ra
  case vmulQ15Q16 | interpQ15 => exact encodeR_toNat _ rd ra rb rc
  all_goals exact encodeR_toNat_three _ rd ra rb

end Sys2Proof

namespace Sys2Proof.Machine

open Sys2Proof.Claims

/-! ## The four commands that move halves (R81 to R84) -/

theorem exec_ldi (rd : Reg) (imm : Half) (s : State) : exec (.ldi rd imm) s = .next (s.complete16 [] rd imm) := rfl

theorem exec_hi (rd ra : Reg) (s : State) : exec (.hi rd ra) s = .next (s.complete16 [ra] rd (highHalf (s.x ra))) := rfl

theorem exec_lo (rd ra : Reg) (s : State) : exec (.lo rd ra) s = .next (s.complete16 [ra] rd (s.xlo ra)) := rfl

theorem exec_pack (rd ra rb : Reg) (s : State) :
    exec (.pack rd ra rb) s = .next (s.complete [ra, rb] rd (s.xlo ra ++ s.xlo rb)) := rfl

/-- The state after a command that writes a register (R80). -/
theorem State.complete_eq_afterWrite (s : State) (srcs : List Reg) (rd : Reg) (v : Word) :
    s.complete srcs rd v = afterWrite s srcs rd v := rfl

theorem highHalf_x_eq_high (s : State) (r : Reg) : highHalf (s.x r) = high s r := highHalf_eq_shift (s.x r)

/-- Settles O7: each command is its completion, with the halves in the statement's terms. -/
theorem typeModelCommandsMoveHalves : Obligations.TypeModelCommandsMoveHalves := by
  intro s rd ra rb imm
  simp only [← State.complete16_eq_afterWrite16, ← State.complete_eq_afterWrite, ← State.xlo_eq_low, ← highHalf_x_eq_high]
  exact ⟨exec_ldi rd imm s, exec_hi rd ra s, exec_lo rd ra s, exec_pack rd ra rb s⟩

/-! ## Splitting and packing (R85) -/

/-- Taking a register apart into two others and packing these gives its pattern back. -/
theorem runAll_hi_lo_pack (s : State) {a h l : Reg} (d : Reg) (hah : a ≠ h) (hhl : h ≠ l) :
    ∃ t, runAll [.hi h a, .lo l a, .pack d h l] s = .next t ∧ t.x d = s.x a := by
  refine ⟨_, rfl, ?_⟩
  simp [State.xlo, State.complete16_x, hah.symm, hhl.symm]

/-- What `PACK` followed by `HI` leaves: the upper operand's low half, zero-extended, in `h`, and the packed pattern in `d`. -/
theorem runAll_pack_hi (s : State) (a b : Reg) {d h : Reg} (hhd : h ≠ d) :
    ∃ t, runAll [.pack d a b, .hi h d] s = .next t ∧ t.x h = zext32 (s.xlo a) ∧ t.x d = s.xlo a ++ s.xlo b := by
  refine ⟨_, rfl, ?_, ?_⟩
  · simp
  · simp [State.complete16_x, hhd]

/-- Settles O32: a pattern is its two halves, and each half of a packed pattern is the half that was put there. -/
theorem splittingAndPackingAreInverse : Obligations.SplittingAndPackingAreInverse := by
  refine ⟨fun s a h l d hah _ hhl => runAll_hi_lo_pack s d hah hhl, fun s a b d h l hhd => ?_⟩
  obtain ⟨t, hrun, hhigh, hpacked⟩ := runAll_pack_hi s a b hhd
  have hlow : t.xlo d = s.xlo b := by rw [State.xlo, hpacked, lowHalf_append]
  rw [← State.xlo_eq_low, ← State.xlo_eq_low]
  refine ⟨t, _, hrun, exec_lo l d t, hhigh, ?_⟩
  rw [State.complete16_x_self, hlow, zext32]

/-! ## The frame of a command that writes a register (R80) -/

/-- Every register-writing command but the division completes on the very state it started from. -/
theorem exec_eq_complete_of_not_div {i : Instr} {s t : State} {rd : Reg} (hd : i.dest = some rd) (h : exec i s = .next t)
    (hdiv : ∀ ra rb, i ≠ .divQ16Q16 rd ra rb) : ∃ v, t = s.complete i.sources rd v := by
  cases i
  case vmulQ15Q16 => cases hd
  case divQ16Q16 _ ra rb => cases hd; exact absurd rfl (hdiv ra rb)
  case lutQ15 _ ra rb =>
    cases hd
    obtain ⟨y1, y2, -, -, rfl⟩ := execLutQ15_next_iff.mp h
    exact ⟨_, rfl⟩
  all_goals
    cases hd; cases h
    exact ⟨_, rfl⟩

/-- Every register-writing command, the division by zero among them, completes on the state it started from, up to the free
values used and the mark of a zero denominator (R80, R122). -/
theorem exec_eq_complete_upto_division {i : Instr} {s t : State} {rd : Reg} (hd : i.dest = some rd)
    (h : exec i s = .next t) : ∃ v n z,
      t = State.complete { s with free := n, marks := { s.marks with zeroDenominator := z } } i.sources rd v := by
  obtain ⟨v, rfl | rfl⟩ := exec_next_of_dest hd h
  · exact ⟨v, s.free, s.marks.zeroDenominator, rfl⟩
  · exact ⟨v, _, _, rfl⟩

/-- A completion leaves every register but `rd`, and whether it counts as written, as they were (R80). -/
theorem State.complete_keeps_other (s : State) (srcs : List Reg) {rd r : Reg} (v : Word) (hr : r ≠ rd) :
    (s.complete srcs rd v).x r = s.x r ∧ (s.complete srcs rd v).isWritten r = s.isWritten r := by
  rw [State.complete_x, State.complete_isWritten, if_neg hr.symm, if_neg hr.symm]
  exact ⟨rfl, rfl⟩

theorem State.complete_isWritten_self (s : State) (srcs : List Reg) (rd : Reg) (v : Word) :
    (s.complete srcs rd v).isWritten rd = true := by
  rw [State.complete_isWritten, if_pos rfl]

/-- Settles O20: a completion writes `rd` and the bookkeeping alone, and only the division starts it from a changed state. -/
theorem registerCommandsFrame : Obligations.RegisterCommandsFrame := by
  intro i s t rd hd h
  have hdivision : (∀ ra rb, i ≠ .divQ16Q16 rd ra rb) →
      t.free = s.free ∧ t.marks.zeroDenominator = s.marks.zeroDenominator := by
    intro hdiv
    obtain ⟨v, rfl⟩ := exec_eq_complete_of_not_div hd h hdiv
    exact ⟨rfl, rfl⟩
  obtain ⟨v, n, z, rfl⟩ := exec_eq_complete_upto_division hd h
  exact ⟨fun r hr => State.complete_keeps_other _ _ v hr, State.complete_isWritten_self _ _ rd v, fun _ => rfl,
    rfl, rfl, rfl, rfl, rfl, rfl, rfl, rfl, rfl, rfl, hdivision⟩

end Sys2Proof.Machine
end

section
/-! PROOF. The conversions (spec/41_conversion.md R90 to R96): the number each of the five results is, and what widening and
narrowing leave when one follows the other. -/

namespace Sys2Proof.Machine

open Sys2Proof.Claims

/-! ## The shifts between Q0.15 and Q0.16 as numbers (R91, R92, R94) -/

/-- Two patterns joined, the second the less significant, as a number (R11). -/
theorem append_toNat {m n : Nat} (x : BitVec m) (y : BitVec n) : (x ++ y).toNat = x.toNat * 2 ^ n + y.toNat := by
  rw [BitVec.toNat_append, ← Nat.shiftLeft_add_eq_or_of_lt y.isLt, Nat.shiftLeft_eq]

/-- The naive shift doubles modulo 2^16: the old bit 15 is dropped (R91, D25). -/
theorem shiftLeftOne_toNat (a : Half) : (shiftLeftOne a).toNat = 2 * a.toNat % 65536 := by
  simp only [shiftLeftOne, append_toNat, BitVec.extractLsb'_toNat, Nat.shiftRight_eq_div_pow, BitVec.toNat_ofNat]
  omega

/-- On a non-negative input no bit is lost, and the naive shift is exact (R91). -/
theorem shiftLeftOne_of_nonneg {a : Half} (h : 0 ≤ a.toInt) : ((shiftLeftOne a).toNat : Int) = 2 * a.toInt := by
  have hcases := a.toInt_eq_toNat_cond
  have hlt := a.isLt
  rw [shiftLeftOne_toNat]
  omega

/-- The right shift halves the unsigned value, truncated (R94, D26). -/
theorem shiftRightOne_toNat (a : Half) : (shiftRightOne a).toNat = a.toNat / 2 := by
  have := a.isLt
  simp only [shiftRightOne, append_toNat, BitVec.extractLsb'_toNat, Nat.shiftRight_eq_div_pow, BitVec.toNat_ofNat]
  omega

/-- The saturating conversion doubles a non-negative input and clamps a negative one to 0 (R92). -/
theorem clampQ15_toNat (a : Half) : ((clampQ15 a).toNat : Int) = 2 * max 0 a.toInt := by
  unfold clampQ15
  split
  next hmsb =>
    have hneg : a.toInt < 0 := BitVec.toInt_neg_of_msb_true hmsb
    rw [max_eq_left hneg.le]
    rfl
  next hmsb =>
    have hnonneg : 0 ≤ a.toInt := BitVec.toInt_nonneg_of_msb_false (eq_false_of_ne_true hmsb)
    rw [max_eq_right hnonneg, shiftLeftOne_of_nonneg hnonneg]

/-! ## The clamp of a 32-bit pattern (R95) -/

/-- The integer half is zero exactly when the unsigned value is that of a Q0.16 pattern. -/
theorem highHalf_eq_zero_iff (p : Word) : highHalf p = 0 ↔ p.toNat < 65536 := by
  have := p.isLt
  rw [highHalf, slice_eq_zero_iff]
  omega

/-- A pattern whose integer half is zero has the value of its fractional half. -/
theorem toInt_of_highHalf_eq_zero {p : Word} (h : highHalf p = 0) : p.toInt = (lowHalf p).toNat := by
  rw [highHalf_eq_zero_iff] at h
  rw [BitVec.toInt_eq_toNat_of_lt (by omega), lowHalf, slice_toNat]
  omega

/-- The three cases of R95 are one clamp of the signed value to 0 .. 65535. -/
theorem clampQ1516_toNat (p : Word) : ((clampQ1516 p).toNat : Int) = max 0 (min p.toInt 65535) := by
  unfold clampQ1516
  split_ifs with hhigh hmsb
  · have hlow := (lowHalf p).isLt
    rw [toInt_of_highHalf_eq_zero hhigh]
    omega
  · have hneg : p.toInt < 0 := BitVec.toInt_neg_of_msb_true hmsb
    rw [max_eq_left (by omega)]
    rfl
  · have hlarge : 65536 ≤ p.toInt := by
      rw [highHalf_eq_zero_iff] at hhigh
      rw [BitVec.toInt_eq_toNat_of_msb (eq_false_of_ne_true hmsb)]
      omega
    rw [min_eq_right (by omega)]
    rfl

/-! ## The five commands -/

theorem exec_cvtQ15Q16N (rd ra : Reg) (s : State) :
    exec (.cvtQ15Q16N rd ra) s = .next (s.complete16 [ra] rd (shiftLeftOne (s.xlo ra))) := rfl

theorem exec_cvtQ15Q16S (rd ra : Reg) (s : State) :
    exec (.cvtQ15Q16S rd ra) s = .next (s.complete16 [ra] rd (clampQ15 (s.xlo ra))) := rfl

/-- The pattern with a zero integer half is the zero-extension, so widening completes as a 16-bit result does (R17, R93). -/
theorem exec_cvtQ16Q1516 (rd ra : Reg) (s : State) :
    exec (.cvtQ16Q1516 rd ra) s = .next (s.complete16 [ra] rd (s.xlo ra)) := by
  rw [State.complete16, zext32_eq_append]
  rfl

theorem exec_cvtQ16Q15 (rd ra : Reg) (s : State) :
    exec (.cvtQ16Q15 rd ra) s = .next (s.complete16 [ra] rd (shiftRightOne (s.xlo ra))) := rfl

theorem exec_cvtQ1516Q16 (rd ra : Reg) (s : State) :
    exec (.cvtQ1516Q16 rd ra) s = .next (s.complete16 [ra] rd (clampQ1516 (s.x ra))) := rfl

theorem zext32_toNat (v : Half) : (zext32 v).toNat = v.toNat := BitVec.toNat_setWidth_of_le (by decide)

/-- Settles O8: each command is its completion, with the result that the lemma about its shift or clamp gives a number. -/
theorem conversionsHaveTheirValues : Obligations.ConversionsHaveTheirValues := by
  intro s rd ra
  simp only [← State.complete16_eq_afterWrite16, ← State.complete_eq_afterWrite, ← State.xlo_eq_low]
  exact ⟨⟨_, exec_cvtQ15Q16N rd ra s, shiftLeftOne_toNat _, shiftLeftOne_of_nonneg⟩,
    ⟨_, exec_cvtQ15Q16S rd ra s, clampQ15_toNat _⟩,
    ⟨_, exec_cvtQ16Q1516 rd ra s, zext32_toNat _⟩,
    ⟨_, exec_cvtQ16Q15 rd ra s, shiftRightOne_toNat _⟩,
    ⟨_, exec_cvtQ1516Q16 rd ra s, clampQ1516_toNat _⟩⟩

/-! ## Widening and narrowing (R96) -/

/-- A zero-extended pattern is in range, so the clamp gives it back. -/
theorem clampQ1516_zext32 (v : Half) : clampQ1516 (zext32 v) = v := by
  rw [clampQ1516, if_pos (highHalf_zext32 v), lowHalf_zext32]

/-- Two commands one after the other, from what each does. -/
theorem runAll_pair {i j : Instr} {s t u : State} (hi : exec i s = .next t) (hj : exec j t = .next u) :
    runAll [i, j] s = .next u := by
  simp only [runAll, hi, hj]

/-- Settles O33: the second command reads what the first wrote, whichever registers are equal; the one way round it clamps a
zero-extension, the other it extends a clamp. -/
theorem wideningAndNarrowingIsTheIdentity : Obligations.WideningAndNarrowingIsTheIdentity := by
  refine ⟨fun s r t d => ?_, fun s r t d => ?_⟩
  · refine ⟨_, runAll_pair (exec_cvtQ16Q1516 t r s) (exec_cvtQ1516Q16 d t _), ?_⟩
    rw [State.complete16_x_self, State.complete16_x_self, clampQ1516_zext32, zext32, State.xlo_eq_low]
  · refine ⟨_, runAll_pair (exec_cvtQ1516Q16 t r s) (exec_cvtQ16Q1516 d t _), ?_⟩
    rw [State.complete16_x_self, State.xlo, State.complete16_x_self, lowHalf_zext32, zext32_toNat, clampQ1516_toNat]

end Sys2Proof.Machine
end

section
/-! PROOF. The saturating absolute value and the nine multiplies (spec/42_arithmetic.md R101 to R113): what each command
writes, in which range it is the floor of the exact product, and the sine's product as one of them (spec/45_sine.md R146). -/

namespace Sys2Proof.Machine

open Sys2Proof.Claims

/-! ## The absolute value (R101) -/

/-- The three branches of R101 are one magnitude, cut at the largest Q0.15 value. -/
theorem absQ15_toInt (a : Half) : (absQ15 a).toInt = min |a.toInt| 32767 := by
  obtain ⟨hlow, hhigh⟩ : -32768 ≤ a.toInt ∧ a.toInt < 32768 := signed16_bounds a
  unfold absQ15
  split_ifs with hmin hmsb
  · rw [hmin]; rfl
  · have hneg : a.toInt < 0 := BitVec.toInt_neg_of_msb_true hmsb
    have hne : a.toInt ≠ -32768 := fun h => hmin (BitVec.eq_of_toInt_eq h)
    have hwrap : (wrap 16 (-signed a)).toInt = -a.toInt := signed_wrap16 (by unfold signed; omega) (by unfold signed; omega)
    rw [hwrap, abs_of_neg hneg]
    omega
  · have hnonneg : 0 ≤ a.toInt := BitVec.toInt_nonneg_of_msb_false (eq_false_of_ne_true hmsb)
    rw [abs_of_nonneg hnonneg]
    omega

theorem absQ15_sign (a : Half) : (absQ15 a).getLsbD 15 = false := by
  have hnonneg : 0 ≤ (absQ15 a).toInt := by rw [absQ15_toInt]; positivity
  rw [← BitVec.msb_eq_getLsbD_last (absQ15 a), BitVec.msb_eq_toInt]
  exact decide_eq_false hnonneg.not_gt

theorem exec_absQ15 (rd ra : Reg) (s : State) :
    exec (.absQ15 rd ra) s = .next (s.complete16 [ra] rd (absQ15 (s.xlo ra))) := rfl

/-- Settles O9: the word is of the two-operand format, and the result is the saturated magnitude. -/
theorem absoluteValueSaturates : Obligations.AbsoluteValueSaturates := by
  intro s rd ra
  rw [← State.xlo_eq_low]
  refine ⟨encodeR_toNat_two _ rd ra, absQ15 (s.xlo ra), ?_, absQ15_toInt _, absQ15_sign _⟩
  rw [← State.complete16_eq_afterWrite16, exec_absQ15]

/-! ## What each multiply writes (R104 to R112) -/

theorem exec_mulQ15Q15 (rd ra rb : Reg) (s : State) : exec (.mulQ15Q15 rd ra rb) s =
    .next (s.complete16 [ra, rb] rd (mulLaw 16 15 (signed (s.xlo ra)) (signed (s.xlo rb)))) := rfl

theorem exec_mulQ15Q16 (rd ra rb : Reg) (s : State) : exec (.mulQ15Q16 rd ra rb) s =
    .next (s.complete16 [ra, rb] rd (mulLaw 16 16 (signed (s.xlo ra)) (unsigned (s.xlo rb)))) := rfl

theorem exec_mulQ15Q1616 (rd ra rb : Reg) (s : State) : exec (.mulQ15Q1616 rd ra rb) s =
    .next (s.complete16 [ra, rb] rd (mulLaw 16 16 (signed (s.xlo ra)) (unsigned (s.x rb)))) := rfl

theorem exec_mulQ16Q16 (rd ra rb : Reg) (s : State) : exec (.mulQ16Q16 rd ra rb) s =
    .next (s.complete16 [ra, rb] rd (mulLaw 16 16 (unsigned (s.xlo ra)) (unsigned (s.xlo rb)))) := rfl

theorem exec_mulQ32Q16 (rd ra rb : Reg) (s : State) : exec (.mulQ32Q16 rd ra rb) s =
    .next (s.complete [ra, rb] rd (mulLaw 32 16 (unsigned (s.x ra)) (unsigned (s.xlo rb)))) := rfl

theorem exec_mulQ32U16 (rd ra rb : Reg) (s : State) : exec (.mulQ32U16 rd ra rb) s =
    .next (s.complete [ra, rb] rd (mulLaw 32 0 (unsigned (s.x ra)) (unsigned (s.xlo rb)))) := rfl

theorem exec_mulQ1616Q16 (rd ra rb : Reg) (s : State) : exec (.mulQ1616Q16 rd ra rb) s =
    .next (s.complete [ra, rb] rd (mulLaw 32 16 (unsigned (s.x ra)) (unsigned (s.xlo rb)))) := rfl

theorem exec_mulQ1616U16 (rd ra rb : Reg) (s : State) : exec (.mulQ1616U16 rd ra rb) s =
    .next (s.complete [ra, rb] rd (mulLaw 32 0 (unsigned (s.x ra)) (unsigned (s.xlo rb)))) := rfl

theorem exec_mulQ1616Q1616 (rd ra rb : Reg) (s : State) : exec (.mulQ1616Q1616 rd ra rb) s =
    .next (s.complete [ra, rb] rd (mulLaw 32 16 (unsigned (s.x ra)) (unsigned (s.x rb)))) := rfl

/-- On two unsigned readings the law of R102 is a division of naturals. -/
theorem mulLaw_unsigned {m l : Nat} (n k : Nat) (a : BitVec m) (b : BitVec l) :
    mulLaw n k (unsigned a) (unsigned b) = BitVec.ofNat n (a.toNat * b.toNat / 2 ^ k) := by
  have hdiv : floorDiv (unsigned a * unsigned b) (2 ^ k) = ((a.toNat * b.toNat / 2 ^ k : Nat) : Int) := by
    rw [floorDiv_eq_ediv _ (by positivity)]
    simp [unsigned]
  rw [mulLaw, hdiv, wrap, BitVec.ofInt_natCast]

/-- Settles O10: each command is the law of R102 at its readings. -/
theorem halfWordMultipliesTruncateAndWrap : Obligations.HalfWordMultipliesTruncateAndWrap := by
  intro s rd ra rb
  simp only [← State.complete16_eq_afterWrite16, ← State.xlo_eq_low]
  exact ⟨exec_mulQ15Q15 rd ra rb s, exec_mulQ15Q16 rd ra rb s, exec_mulQ15Q1616 rd ra rb s,
    by rw [exec_mulQ16Q16, mulLaw_unsigned]; rfl⟩

/-- Settles O11: each command is the law of R102 at its readings, all of them unsigned. -/
theorem wordMultipliesTruncateAndWrap : Obligations.WordMultipliesTruncateAndWrap := by
  intro s rd ra rb
  simp only [← State.complete_eq_afterWrite, ← State.xlo_eq_low, exec_mulQ32Q16, exec_mulQ32U16, exec_mulQ1616Q16,
    exec_mulQ1616U16, exec_mulQ1616Q1616, mulLaw_unsigned]
  norm_num

/-! ## A product in the output range is not cut (R113) -/

/-- The floor of a product in the signed output range fits 16 bits. -/
theorem ofInt_fdiv_toInt {p d : Int} (hd : 0 < d) (hlow : -32768 * d ≤ p) (hhigh : p < 32768 * d) :
    (BitVec.ofInt 16 (Int.fdiv p d)).toInt = Int.fdiv p d := by
  have hfloor : Int.fdiv p d = p / d := Int.fdiv_eq_ediv_of_nonneg p hd.le
  refine signed_wrap16 ?_ ?_
  · rw [hfloor]; exact (Int.le_ediv_iff_mul_le hd).mpr hlow
  · rw [hfloor]; exact (Int.ediv_lt_iff_lt_mul hd).mpr hhigh

/-- The floor of a product in the unsigned output range fits `n` bits. -/
theorem ofNat_div_toNat {n p d : Nat} (h : p < 2 ^ n * d) : (BitVec.ofNat n (p / d)).toNat = p / d := by
  rw [BitVec.toNat_ofNat, Nat.mod_eq_of_lt (Nat.div_lt_of_lt_mul (by rwa [Nat.mul_comm]))]

/-- R113 for a signed result. -/
theorem ofInt_fdiv_truncates {p d : Int} (hd : 0 < d) (hlow : -32768 * d ≤ p) (hhigh : p < 32768 * d) :
    (BitVec.ofInt 16 (Int.fdiv p d)).toInt * d ≤ p ∧ p < ((BitVec.ofInt 16 (Int.fdiv p d)).toInt + 1) * d := by
  rw [ofInt_fdiv_toInt hd hlow hhigh]
  exact floorDiv_bounds p hd

/-- R113 for an unsigned result. -/
theorem ofNat_div_truncates {n p d : Nat} (hd : 0 < d) (h : p < 2 ^ n * d) :
    (BitVec.ofNat n (p / d)).toNat * d ≤ p ∧ p < ((BitVec.ofNat n (p / d)).toNat + 1) * d := by
  rw [ofNat_div_toNat h]
  exact ⟨Nat.div_mul_le_self p d, Nat.lt_mul_of_div_lt (Nat.lt_succ_self _) hd⟩

/-- R113 where no product bit is dropped at the bottom: the result is the product itself. -/
theorem ofNat_truncates {n p : Nat} (h : p < 2 ^ n) : (BitVec.ofNat n p).toNat ≤ p ∧ p < (BitVec.ofNat n p).toNat + 1 := by
  rw [BitVec.toNat_ofNat, Nat.mod_eq_of_lt h]
  exact ⟨le_rfl, Nat.lt_succ_self p⟩

/-! ## Bounds of the exact products -/

theorem toNat_mul_lt {m l : Nat} (a : BitVec m) (b : BitVec l) : a.toNat * b.toNat < 2 ^ m * 2 ^ l :=
  Nat.mul_lt_mul'' a.isLt b.isLt

theorem toInt_mul_toNat_bounds (a b : Half) :
    -32768 * 65536 ≤ a.toInt * b.toNat ∧ a.toInt * b.toNat < 32768 * 65536 := by
  obtain ⟨halow, hahigh⟩ : -32768 ≤ a.toInt ∧ a.toInt < 32768 := signed16_bounds a
  obtain ⟨hblow, hbhigh⟩ : 0 ≤ (b.toNat : Int) ∧ (b.toNat : Int) < 65536 := unsigned16_bounds b
  constructor <;> nlinarith

/-- Two Q0.15 values multiply to less than 1 except at -1 times -1 (U5). -/
theorem toInt_mul_toInt_bounds {a b : Half} (h : ¬(a = 0x8000 ∧ b = 0x8000)) :
    -32768 * 32768 ≤ a.toInt * b.toInt ∧ a.toInt * b.toInt < 32768 * 32768 := by
  obtain ⟨halow, hahigh⟩ : -32768 ≤ a.toInt ∧ a.toInt < 32768 := signed16_bounds a
  obtain ⟨hblow, hbhigh⟩ : -32768 ≤ b.toInt ∧ b.toInt < 32768 := signed16_bounds b
  have hne : -32768 < a.toInt ∨ -32768 < b.toInt := by
    by_contra hle
    obtain ⟨ha, hb⟩ : a.toInt = -32768 ∧ b.toInt = -32768 := by omega
    exact h ⟨BitVec.eq_of_toInt_eq ha, BitVec.eq_of_toInt_eq hb⟩
  refine ⟨by nlinarith, ?_⟩
  rcases hne with ha | hb <;> nlinarith

/-- Settles O24: each result is the floor of its product, which in the output range is not cut. -/
theorem multipliesNeverRoundUp : Obligations.MultipliesNeverRoundUp := by
  intro s rd ra rb
  obtain ⟨hQ15Q15, hQ15Q16, hQ15Q1616, hQ16Q16⟩ := halfWordMultipliesTruncateAndWrap s rd ra rb
  obtain ⟨hQ32Q16, hQ32U16, hQ1616Q16, hQ1616U16, hQ1616Q1616⟩ := wordMultipliesTruncateAndWrap s rd ra rb
  exact ⟨⟨_, hQ16Q16, ofNat_div_truncates (by decide) (toNat_mul_lt _ _)⟩,
    ⟨_, hQ15Q15, ofInt_fdiv_truncates (by decide)⟩,
    ⟨_, hQ15Q16, ofInt_fdiv_truncates (by decide)⟩,
    ⟨_, hQ15Q1616, ofInt_fdiv_truncates (by decide)⟩,
    ⟨_, hQ32Q16, ofNat_div_truncates (by decide)⟩,
    ⟨_, hQ32U16, ofNat_truncates⟩,
    ⟨_, hQ1616Q16, ofNat_div_truncates (by decide)⟩,
    ⟨_, hQ1616U16, ofNat_truncates⟩,
    ⟨_, hQ1616Q1616, ofNat_div_truncates (by decide)⟩⟩

/-- The multiply of R105 never overflows. -/
theorem scaled_toInt (a c : Half) : (scaled a c).toInt = Int.fdiv (a.toInt * c.toNat) 65536 :=
  ofInt_fdiv_toInt (by decide) (toInt_mul_toNat_bounds a c).1 (toInt_mul_toNat_bounds a c).2

/-- Settles O25: the factors' ranges put the exact product in the output range, but for -1 times -1. -/
theorem whichMultipliesOverflow : Obligations.WhichMultipliesOverflow := by
  intro s rd ra rb
  obtain ⟨hQ15Q15, hQ15Q16, -, hQ16Q16⟩ := halfWordMultipliesTruncateAndWrap s rd ra rb
  obtain ⟨hQ32Q16, -, hQ1616Q16, -, -⟩ := wordMultipliesTruncateAndWrap s rd ra rb
  refine ⟨⟨_, hQ15Q16, scaled_toInt _ _⟩, ⟨_, hQ16Q16, ofNat_div_toNat (toNat_mul_lt _ _)⟩,
    ⟨_, hQ32Q16, ofNat_div_toNat (toNat_mul_lt _ _)⟩, ⟨_, hQ1616Q16, ofNat_div_toNat (toNat_mul_lt _ _)⟩,
    ⟨_, hQ15Q15, ?_⟩⟩
  split_ifs with hmin
  · obtain ⟨ha, hb⟩ := hmin
    rw [ha, hb]
    rfl
  · obtain ⟨hlow, hhigh⟩ := toInt_mul_toInt_bounds hmin
    exact ofInt_fdiv_toInt (by decide) hlow hhigh

/-! ## Partial products (R103) -/

/-- A product with a factor split at bit 16: the upper partial product is whole, and only the lower one is cut. -/
theorem fdiv_mul_split (a : Int) (bh bl : Nat) :
    Int.fdiv (a * ((bh * 65536 + bl : Nat) : Int)) 65536 = a * bh + Int.fdiv (a * bl) 65536 := by
  have hsplit : a * ((bh * 65536 + bl : Nat) : Int) = a * bl + 65536 * (a * bh) := by push_cast; ring
  rw [hsplit, Int.fdiv_eq_ediv_of_nonneg _ (by decide), Int.fdiv_eq_ediv_of_nonneg _ (by decide),
    Int.add_mul_ediv_left _ _ (by decide), add_comm]

/-- The same with both factors split: of the four partial products only the lowest is cut. -/
theorem mul_split_div (ah al bh bl : Nat) :
    (ah * 65536 + al) * (bh * 65536 + bl) / 65536 = ah * bh * 65536 + ah * bl + al * bh + al * bl / 65536 := by
  have hsplit : (ah * 65536 + al) * (bh * 65536 + bl) = al * bl + 65536 * (ah * bh * 65536 + ah * bl + al * bh) := by ring
  rw [hsplit, Nat.add_mul_div_left _ _ (by decide), add_comm]

theorem mul_split_left_div (ah al b : Nat) : (ah * 65536 + al) * b / 65536 = ah * b + al * b / 65536 := by
  simpa using mul_split_div ah al 0 b

/-- A register as the number its two halves make (R11). -/
theorem x_toNat_halves (s : State) (r : Reg) : (s.x r).toNat = (high s r).toNat * 65536 + (low s r).toNat := by
  have h : unsigned (s.x r) = unsigned (highHalf (s.x r)) * 65536 + unsigned (s.xlo r) := unsigned_halves (s.x r)
  rw [highHalf_x_eq_high, State.xlo_eq_low] at h
  unfold unsigned at h
  exact_mod_cast h

/-- Settles O23: the two identities, used on the product that each of the four commands writes. -/
theorem halfWordDecompositionAgrees : Obligations.HalfWordDecompositionAgrees := by
  refine ⟨fdiv_mul_split, mul_split_div, fun s rd ra rb => ?_⟩
  obtain ⟨-, -, hQ15Q1616, -⟩ := halfWordMultipliesTruncateAndWrap s rd ra rb
  obtain ⟨hQ32Q16, -, hQ1616Q16, -, hQ1616Q1616⟩ := wordMultipliesTruncateAndWrap s rd ra rb
  rw [x_toNat_halves, fdiv_mul_split] at hQ15Q1616
  rw [x_toNat_halves, mul_split_left_div] at hQ32Q16 hQ1616Q16
  rw [x_toNat_halves s ra, x_toNat_halves s rb, mul_split_div] at hQ1616Q1616
  exact ⟨hQ15Q1616, hQ1616Q1616, hQ32Q16, hQ1616Q16⟩

/-! ## The product of the sine (R143, R146) -/

/-- The product of the sine, a slope times 256ths, is the multiply of R105 with the fraction as a Q0.16 pattern. -/
theorem scaled_fraction_toInt (slope : Half) {f : Nat} (hf : f < 256) :
    (scaled slope (BitVec.ofNat 16 (f * 256))).toInt = Int.fdiv (slope.toInt * f) 256 := by
  have hfraction : (BitVec.ofNat 16 (f * 256)).toNat = f * 256 := by
    rw [BitVec.toNat_ofNat, Nat.mod_eq_of_lt (by omega)]
  have hscale : slope.toInt * ((f * 256 : Nat) : Int) = slope.toInt * f * 256 := by push_cast; ring
  rw [scaled_toInt, hfraction, hscale]
  exact Int.mul_fdiv_mul_of_pos_left (slope.toInt * f) 256 (by decide)

theorem sine_product_bounds (slope : Half) {f : Nat} (hf : f < 256) :
    -32768 ≤ Int.fdiv (slope.toInt * f) 256 ∧ Int.fdiv (slope.toInt * f) 256 ≤ 32640 := by
  obtain ⟨hlow, hhigh⟩ : -32768 ≤ slope.toInt ∧ slope.toInt < 32768 := signed16_bounds slope
  have hproduct : -32768 * 255 ≤ slope.toInt * f ∧ slope.toInt * f ≤ 32768 * 255 := by constructor <;> nlinarith
  rw [Int.fdiv_eq_ediv_of_nonneg _ (by decide)]
  omega

/-- Settles O30: the sum of the sine with its product read as that multiply. -/
theorem sineProductIsTheTruncatingMultiply : Obligations.SineProductIsTheTruncatingMultiply := by
  intro s rd ra u f hu hf hsplit
  refine ⟨_, rfl, ?_⟩
  rw [scaled_fraction_toInt _ hf]
  obtain ⟨hlow, hhigh⟩ := sine_product_bounds (s.sinRom[2 * u]'(by omega)) hf
  exact ⟨hlow, hhigh, fun hzero => by simp [hzero], sineEvaluatesItsSegment s rd ra u f hu hf hsplit⟩

end Sys2Proof.Machine
end

section
/-! PROOF. The vector multiply from its command to its end (spec/42_arithmetic.md R114, R115; spec/20_memory.md R57): its two
starts, and what the element loop leaves in memory. -/

namespace Sys2Proof.Machine

open Sys2Proof.Claims

/-! ## The start (R114, R115) -/

theorem State.not_anyUnwritten (s : State) (rs : List Reg) : (!s.anyUnwritten rs) = allWritten s rs := by
  simp [State.anyUnwritten, allWritten, State.isWritten, List.not_any_eq_all_not]

/-- Settles O19: the branch of a zero length, whose count is the free one. -/
theorem zeroLengthStartsSomeNumberOfElements : Obligations.ZeroLengthStartsSomeNumberOfElements := by
  intro s rd ra rb rc hzero
  refine ⟨Config.freeCount s.free, ?_⟩
  rw [← State.xlo_eq_low] at hzero
  simp only [exec, execVmulQ15Q16, hzero, ← State.xlo_eq_low, ← State.not_anyUnwritten]
  rfl

/-- Settles O21: for a zero length and for any other, the start touches the flight, the marks of rows 3 and 5 and the free values
alone. -/
theorem vectorMultiplyStartFrame : Obligations.VectorMultiplyStartFrame := by
  intro s t rd ra rb rc h
  by_cases hlen : low s rc = 0
  · obtain ⟨n, hstart⟩ := zeroLengthStartsSomeNumberOfElements s rd ra rb rc hlen
    cases hstart.symm.trans h
    exact ⟨fun _ => ⟨rfl, rfl⟩, fun _ => rfl, rfl, rfl, rfl, rfl, rfl, rfl, rfl, rfl, rfl⟩
  · cases (vectorMultiplyLatchesItsOperands s rd ra rb rc hlen).symm.trans h
    exact ⟨fun _ => ⟨rfl, rfl⟩, fun _ => rfl, rfl, rfl, rfl, rfl, rfl, rfl, rfl, rfl, rfl⟩

/-! ## What the element loop leaves in memory (R47, R57) -/

/-- The loop writes no byte outside the destination words of its elements. -/
theorem loop_readByte_of_ne {dst src c : Half} {k : Nat} (n : Nat) {i : Nat} {m : Memory} (hwf : m.wf = true)
    (hk : ∀ j, i ≤ j → j < i + n → k ≠ 2 * (element dst j).toNat ∧ k ≠ 2 * (element dst j).toNat + 1) :
    (loop dst src c i n m).readByte k = m.readByte k := by
  induction n generalizing i m with
  | zero => rfl
  | succ n ih =>
    obtain ⟨hlow, hhigh⟩ := hk i le_rfl (by omega)
    rw [loop, ih (Memory.wf_writeWord hwf) fun j hle hlt => hk j (by omega) (by omega),
      Memory.readByte_writeWord_of_ne hwf hlow hhigh]

/-- A word that is no destination word of the loop's elements reads as before. -/
theorem loop_readWord_of_ne {dst src c a : Half} (n : Nat) {i : Nat} {m : Memory} (hwf : m.wf = true)
    (ha : ∀ j, i ≤ j → j < i + n → a ≠ element dst j) : (loop dst src c i n m).readWord a = m.readWord a := by
  have hne : ∀ j, i ≤ j → j < i + n → a.toNat ≠ (element dst j).toNat :=
    fun j hle hlt h => ha j hle hlt (BitVec.eq_of_toNat_eq h)
  unfold Memory.readWord
  rw [loop_readByte_of_ne n hwf fun j hle hlt => by have := hne j hle hlt; omega,
    loop_readByte_of_ne n hwf fun j hle hlt => by have := hne j hle hlt; omega]

/-- Two elements of one sequence stand in different words. -/
theorem element_inj {b : Half} {i j : Nat} (hi : i < 65536) (hj : j < 65536) (h : element b i = element b j) : i = j := by
  rw [← seqAddr_eq_element, ← seqAddr_eq_element] at h
  exact seqAddr_inj hi hj h

/-- No element is written over the source word of a later one: so it is for one sequence in place and for disjoint ones (R57). -/
def KeepsLaterSources (dst src : Half) (count : Nat) : Prop :=
  ∀ i j, i < j → j < count → element dst i ≠ element src j

theorem keepsLaterSources_of_same_or_disjoint {dst src : Half} {count : Nat} (hcount : count ≤ 65536)
    (h : dst = src ∨ ∀ i, i < count → ∀ j, j < count → element dst i ≠ element src j) :
    KeepsLaterSources dst src count := by
  intro i j hij hj
  rcases h with rfl | hdisjoint
  · intro heq
    have := element_inj (by omega) (by omega) heq
    omega
  · exact hdisjoint i (hij.trans hj) j hj

/-- Every element left to the loop ends as the product of its source word as the loop found it: the write of an earlier
element does not reach the source word, and that of a later one not the destination word. -/
theorem loop_readWord_dst {dst src c : Half} {count : Nat} (hcount : count ≤ 65536) (hkeeps : KeepsLaterSources dst src count)
    (n : Nat) {i j : Nat} {m : Memory} (hwf : m.wf = true) (hn : i + n = count) (hi : i ≤ j) (hj : j < count) :
    (loop dst src c i n m).readWord (element dst j) = scaled (m.readWord (element src j)) c := by
  induction n generalizing i m with
  | zero => omega
  | succ n ih =>
    have hwf' := Memory.wf_writeWord (a := element dst i) (v := scaled (m.readWord (element src i)) c) hwf
    rw [loop]
    rcases hi.eq_or_lt with rfl | hlt
    · have hlater : ∀ l, i + 1 ≤ l → l < i + 1 + n → element dst i ≠ element dst l := by
        intro l hle hl heq
        have := element_inj (by omega) (by omega) heq
        omega
      rw [loop_readWord_of_ne n hwf' hlater, Memory.readWord_writeWord hwf, if_pos rfl]
    · rw [ih hwf' (by omega) hlt, Memory.readWord_writeWord hwf, if_neg (hkeeps i j hlt hj)]

/-- Settles O51: the start latches the operands, and the flight runs the loop over memory as the command found it. -/
theorem vectorMultiplyScalesEveryElement : Obligations.VectorMultiplyScalesEveryElement := by
  intro s rd ra rb rc n hn hne hhost hwf hvalid hranges
  have hlen : low s rc ≠ 0 := fun h => hne (by rw [hn, h]; rfl)
  have hcount : n ≤ 65536 := by have := (low s rc).isLt; omega
  have hkeeps := keepsLaterSources_of_same_or_disjoint hcount hranges
  refine ⟨_, _, vectorMultiplyLatchesItsOperands s rd ra rb rc hlen,
    run_flight n rfl hhost rfl ?_ ?_, ?_, ?_, rfl, rfl, rfl, rfl, rfl, rfl⟩
  · simp [hn]
  · exact fun i _ hi => hvalid i (by rwa [hn])
  · exact fun i hi => loop_readWord_dst hcount hkeeps n hwf (Nat.zero_add n) (Nat.zero_le i) hi
  · exact fun k hk => loop_readByte_of_ne n hwf fun j _ hj => hk j (by simpa using hj)

end Sys2Proof.Machine
end

section
/-! PROOF. The division (spec/43_division.md R121 to R123): the number its quotient is, which always fits a register, and its
next state for a zero denominator and for any other. -/

namespace Sys2Proof.Machine

open Sys2Proof.Claims

/-! ## The quotient as a number (R121, R123) -/

/-- On unsigned readings the floor of R121 is a division of naturals. -/
theorem quotient_eq_ofNat (n d : Half) : quotient n d = BitVec.ofNat 32 (n.toNat * 65536 / d.toNat) := by
  have hdiv : floorDiv (unsigned n * 2 ^ 16) (unsigned d) = ((n.toNat * 65536 / d.toNat : Nat) : Int) := by
    rw [floorDiv_eq_ediv _ (unsigned_nonneg d)]
    simp [unsigned]
  rw [quotient, hdiv, wrap, BitVec.ofInt_natCast]

theorem half_toNat_pos {d : Half} (hd : d ≠ 0) : 0 < d.toNat :=
  Nat.pos_of_ne_zero fun h => hd (BitVec.eq_of_toNat_eq h)

/-- The scaled numerator is below 2^32 already, so its quotient by a denominator of at least 1 fits 32 bits. -/
theorem scaled_numerator_lt (n : Half) {d : Half} (hd : d ≠ 0) : n.toNat * 65536 < 2 ^ 32 * d.toNat := by
  have hn := n.isLt
  have hpos := half_toNat_pos hd
  omega

theorem quotient_toNat (n : Half) {d : Half} (hd : d ≠ 0) : (quotient n d).toNat = n.toNat * 65536 / d.toNat := by
  rw [quotient_eq_ofNat, ofNat_div_toNat (scaled_numerator_lt n hd)]

/-- The quotient is the largest number whose product with the denominator does not exceed the scaled numerator (R123). -/
theorem quotient_truncates (n : Half) {d : Half} (hd : d ≠ 0) :
    (quotient n d).toNat * d.toNat ≤ n.toNat * 65536 ∧ n.toNat * 65536 < ((quotient n d).toNat + 1) * d.toNat := by
  rw [quotient_eq_ofNat]
  exact ofNat_div_truncates (half_toNat_pos hd) (scaled_numerator_lt n hd)

/-- A quotient is below 1.0 exactly when the numerator is below the denominator (R123). -/
theorem quotient_integer_half_eq_zero_iff (n : Half) {d : Half} (hd : d ≠ 0) :
    (quotient n d).toNat / 65536 = 0 ↔ n.toNat < d.toNat := by
  rw [quotient_toNat n hd, Nat.div_eq_zero_iff_lt (by decide), Nat.div_lt_iff_lt_mul (half_toNat_pos hd)]
  omega

theorem quotient_self {d : Half} (hd : d ≠ 0) : quotient d d = 0x00010000 := by
  rw [quotient_eq_ofNat, Nat.mul_div_cancel_left _ (half_toNat_pos hd)]
  rfl

/-! ## The command -/

theorem exec_divQ16Q16_of_ne_zero {s : State} {rb : Reg} (rd ra : Reg) (hd : low s rb ≠ 0) :
    exec (.divQ16Q16 rd ra rb) s = .next (afterWrite s [ra, rb] rd (quotient (low s ra) (low s rb))) := by
  simp only [← State.xlo_eq_low, ← State.complete_eq_afterWrite] at hd ⊢
  exact if_neg hd

theorem exec_divQ16Q16_of_eq_zero {s : State} {rb : Reg} (rd ra : Reg) (hd : low s rb = 0) :
    exec (.divQ16Q16 rd ra rb) s = .next
      ((s.useFree.noteZeroDenominator [ra, rb]).complete [ra, rb] rd (Config.freeWord s.free)) := by
  rw [← State.xlo_eq_low] at hd
  exact if_pos hd

/-- Settles O12: a non-zero denominator gives the quotient, which is not cut. -/
theorem quotientIsTheFloor : Obligations.QuotientIsTheFloor := by
  intro s rd ra rb hd
  exact ⟨_, exec_divQ16Q16_of_ne_zero rd ra hd, quotient_toNat _ hd⟩

/-- Settles O13: the pattern is the free word, and row 2 is noted unless row 5 applies. -/
theorem zeroDenominatorWritesSomePattern : Obligations.ZeroDenominatorWritesSomePattern := by
  intro s rd ra rb hd
  refine ⟨Config.freeWord s.free, ?_⟩
  rw [exec_divQ16Q16_of_eq_zero rd ra hd, ← State.not_anyUnwritten]
  rfl

/-- Settles O26: both parts are facts about the quotient that the command writes. -/
theorem selfQuotientIsOne : Obligations.SelfQuotientIsOne := by
  refine ⟨fun s rd ra hd => ?_, fun s rd ra rb hd => ?_⟩
  · rw [exec_divQ16Q16_of_ne_zero rd ra hd, quotient_self hd]
  · obtain ⟨hle, hlt⟩ := quotient_truncates (low s ra) hd
    exact ⟨_, exec_divQ16Q16_of_ne_zero rd ra hd, hle, hlt, quotient_integer_half_eq_zero_iff _ hd⟩

end Sys2Proof.Machine
end

section
/-! PROOF. The two interpolation commands (spec/44_interpolation.md R130 to R136). The rounding is monotonic and exact on whole
units; that alone puts a result between its samples and makes it follow its weight. -/

namespace Sys2Proof.Machine

open Sys2Proof.Claims

/-! ## The rounding (R131) -/

theorem roundHalfUp_eq_ediv (k : Nat) (p : Int) : roundHalfUp k p = (p + 2 ^ (k - 1)) / 2 ^ k :=
  floorDiv_eq_ediv _ (by positivity)

theorem roundHalfUp_mono {k : Nat} {p p' : Int} (h : p ≤ p') : roundHalfUp k p ≤ roundHalfUp k p' := by
  rw [roundHalfUp_eq_ediv, roundHalfUp_eq_ediv]
  exact Int.ediv_le_ediv (by positivity) (by gcongr)

/-- A whole number of units is not changed: the added half is below a unit. -/
theorem roundHalfUp_mul_unit {k : Nat} (hk : 0 < k) (d : Int) : roundHalfUp k (d * 2 ^ k) = d := by
  have hhalf : (2 : Int) ^ (k - 1) / 2 ^ k = 0 :=
    Int.ediv_eq_zero_of_lt (by positivity) (pow_lt_pow_right₀ (by decide) (Nat.sub_lt hk Nat.one_pos))
  rw [roundHalfUp_eq_ediv, Int.add_ediv_of_dvd_left (Dvd.intro_left d rfl), hhalf, add_zero,
    Int.mul_ediv_cancel d (by positivity)]

theorem roundHalfUp_zero {k : Nat} (hk : 0 < k) : roundHalfUp k 0 = 0 := by
  simpa using roundHalfUp_mul_unit hk 0

/-- The greatest Q0.16 weight is one 65536th short of 1: the product is rounded to `d`, or beside it on zero's side (R133). -/
theorem roundHalfUp_mul_last_weight (d : Int) : roundHalfUp 16 (d * 65535) = d + (32768 - d) / 65536 := by
  have hsplit : d * 65535 + 2 ^ 15 = d * 2 ^ 16 + (32768 - d) := by ring
  rw [roundHalfUp_eq_ediv, hsplit, Int.add_ediv_of_dvd_left (Dvd.intro_left d rfl), Int.mul_ediv_cancel d (by decide)]
  rfl

/-- Rounding at 8 bits is rounding at 16 bits of the product moved up by 8 (R136). -/
theorem roundHalfUp_scale (p : Int) : roundHalfUp 16 (p * 256) = roundHalfUp 8 p := by
  have hscale : p * 256 + 2 ^ 15 = (p + 2 ^ 7) * 256 := by ring
  have hunit : (2 : Int) ^ 16 = 2 ^ 8 * 256 := by decide
  rw [roundHalfUp_eq_ediv, roundHalfUp_eq_ediv, hscale, hunit, Int.mul_ediv_mul_of_pos_left _ _ (by decide)]

/-! ## The interpolated value (R132, R134) -/

/-- `y1 + q` before it is cut to 16 bits. -/
def interpolant (k : Nat) (y1 y2 : Half) (weight : Int) : Int :=
  y1.toInt + roundHalfUp k ((y2.toInt - y1.toInt) * weight)

theorem interpolate_eq_wrap (k : Nat) (y1 y2 : Half) (weight : Int) :
    interpolate k y1 y2 weight = wrap 16 (interpolant k y1 y2 weight) := rfl

section
variable {k : Nat} (hk : 0 < k) (y1 y2 : Half)
include hk

theorem interpolant_zero : interpolant k y1 y2 0 = y1.toInt := by
  rw [interpolant, mul_zero, roundHalfUp_zero hk, add_zero]

theorem interpolant_unit : interpolant k y1 y2 (2 ^ k) = y2.toInt := by
  rw [interpolant, roundHalfUp_mul_unit hk, add_sub_cancel]

end

theorem interpolant_mono {k : Nat} {y1 y2 : Half} {w w' : Int} (hw : w ≤ w') (h : y1.toInt ≤ y2.toInt) :
    interpolant k y1 y2 w ≤ interpolant k y1 y2 w' := by
  have hd : 0 ≤ y2.toInt - y1.toInt := sub_nonneg.mpr h
  have hround := roundHalfUp_mono (k := k) (mul_le_mul_of_nonneg_left hw hd)
  exact Int.add_le_add_left hround _

theorem interpolant_anti {k : Nat} {y1 y2 : Half} {w w' : Int} (hw : w ≤ w') (h : y2.toInt ≤ y1.toInt) :
    interpolant k y1 y2 w' ≤ interpolant k y1 y2 w := by
  have hd : y2.toInt - y1.toInt ≤ 0 := sub_nonpos.mpr h
  have hround := roundHalfUp_mono (k := k) (mul_le_mul_of_nonpos_left hw hd)
  exact Int.add_le_add_left hround _

/-- A weight from 0 to 1 gives a value between those at 0 and at 1, which are the samples (R133 (2)). -/
theorem interpolant_between {k : Nat} (hk : 0 < k) (y1 y2 : Half) {w : Int} (hw0 : 0 ≤ w) (hw1 : w ≤ 2 ^ k) :
    min y1.toInt y2.toInt ≤ interpolant k y1 y2 w ∧ interpolant k y1 y2 w ≤ max y1.toInt y2.toInt := by
  have h0 := interpolant_zero hk y1 y2
  have h1 := interpolant_unit hk y1 y2
  rcases le_total y1.toInt y2.toInt with h | h
  · have hlow := interpolant_mono (k := k) hw0 h
    have hhigh := interpolant_mono (k := k) hw1 h
    omega
  · have hlow := interpolant_anti (k := k) hw1 h
    have hhigh := interpolant_anti (k := k) hw0 h
    omega

/-- The samples fit 16 bits, so a value between them is not cut (R133 (2)). -/
theorem interpolate_toInt {k : Nat} (hk : 0 < k) (y1 y2 : Half) {w : Int} (hw0 : 0 ≤ w) (hw1 : w ≤ 2 ^ k) :
    (interpolate k y1 y2 w).toInt = interpolant k y1 y2 w := by
  obtain ⟨hlow, hhigh⟩ := interpolant_between hk y1 y2 hw0 hw1
  obtain ⟨hlow1, hhigh1⟩ : -32768 ≤ y1.toInt ∧ y1.toInt < 32768 := signed16_bounds y1
  obtain ⟨hlow2, hhigh2⟩ : -32768 ≤ y2.toInt ∧ y2.toInt < 32768 := signed16_bounds y2
  rw [interpolate_eq_wrap]
  exact signed_wrap16 (by omega) (by omega)

theorem interpolate_between {k : Nat} (hk : 0 < k) (y1 y2 : Half) {w : Int} (hw0 : 0 ≤ w) (hw1 : w ≤ 2 ^ k) :
    min y1.toInt y2.toInt ≤ (interpolate k y1 y2 w).toInt ∧ (interpolate k y1 y2 w).toInt ≤ max y1.toInt y2.toInt := by
  rw [interpolate_toInt hk y1 y2 hw0 hw1]
  exact interpolant_between hk y1 y2 hw0 hw1

theorem interpolate_zero {k : Nat} (hk : 0 < k) (y1 y2 : Half) : interpolate k y1 y2 0 = y1 := by
  rw [interpolate_eq_wrap, interpolant_zero hk]
  exact wrap_signed y1

/-- A Q0.16 weight is below 1. -/
theorem weight16_bounds (x : Half) : 0 ≤ (x.toNat : Int) ∧ (x.toNat : Int) ≤ 2 ^ 16 := by
  obtain ⟨hnonneg, hlt⟩ : 0 ≤ (x.toNat : Int) ∧ (x.toNat : Int) < 65536 := unsigned16_bounds x
  exact ⟨hnonneg, hlt.le⟩

theorem interpolate16_toInt (y1 y2 x : Half) : (interpolate 16 y1 y2 x.toNat).toInt = interpolant 16 y1 y2 x.toNat :=
  interpolate_toInt (by decide) y1 y2 (weight16_bounds x).1 (weight16_bounds x).2

theorem interpolate_last_weight_toInt (y1 y2 : Half) :
    (interpolate 16 y1 y2 65535).toInt = y2.toInt + (32768 - (y2.toInt - y1.toInt)) / 65536 := by
  rw [interpolate_toInt (by decide) y1 y2 (by decide) (by decide), interpolant, roundHalfUp_mul_last_weight]
  ring

/-- What separates the value at the greatest weight from `y2` is a floor of at most one unit, and 0 in R133 (3)'s range. -/
theorem interpolate_last_weight (y1 y2 : Half) :
    |(interpolate 16 y1 y2 65535).toInt - y2.toInt| ≤ 1 ∧
      (interpolate 16 y1 y2 65535 = y2 ↔ -32767 ≤ y2.toInt - y1.toInt ∧ y2.toInt - y1.toInt ≤ 32768) := by
  obtain ⟨hlow1, hhigh1⟩ : -32768 ≤ y1.toInt ∧ y1.toInt < 32768 := signed16_bounds y1
  obtain ⟨hlow2, hhigh2⟩ : -32768 ≤ y2.toInt ∧ y2.toInt < 32768 := signed16_bounds y2
  rw [← BitVec.toInt_inj, interpolate_last_weight_toInt, abs_le]
  omega

/-- A byte as the weight of a look-up is that byte moved up as a Q0.16 weight (R136). -/
theorem interpolate8_eq_interpolate16 (y1 y2 : Half) (w : Int) :
    interpolate 8 y1 y2 w = interpolate 16 y1 y2 (w * 256) := by
  rw [interpolate, interpolate, ← mul_assoc, roundHalfUp_scale]

/-! ## `INTERP.Q15` (R132, R133) -/

theorem exec_interpQ15 (rd ra rb rc : Reg) (s : State) : exec (.interpQ15 rd ra rb rc) s =
    .next (afterWrite16 s [ra, rb, rc] rd (interpolate 16 (low s ra) (low s rb) (low s rc).toNat)) := by
  simp only [← State.complete16_eq_afterWrite16, ← State.xlo_eq_low]
  rfl

/-- Settles O14: the formula is the model's interpolation at 16 bits, unfolded. -/
theorem interpolationRoundsOnce : Obligations.InterpolationRoundsOnce :=
  fun s rd ra rb rc => exec_interpQ15 rd ra rb rc s

/-- Settles O27: the value at weight 0, at the greatest weight, and at any. -/
theorem interpolationStaysBetweenSamples : Obligations.InterpolationStaysBetweenSamples := by
  intro s rd ra rb rc
  obtain ⟨hnonneg, hle⟩ := weight16_bounds (low s rc)
  obtain ⟨hlow, hhigh⟩ := interpolate_between (by decide) (low s ra) (low s rb) hnonneg hle
  refine ⟨_, exec_interpQ15 rd ra rb rc s, hlow, hhigh, fun hzero => ?_, fun hlast => ?_⟩
  · rw [hzero]
    exact interpolate_zero (by decide) _ _
  · rw [hlast]
    exact interpolate_last_weight _ _

/-- Settles O28: neither result is cut, and the uncut value follows the weight. -/
theorem interpolationIsMonotonic : Obligations.InterpolationIsMonotonic := by
  intro s s' rd ra rb rc hra hrb hweight
  have hw : ((low s rc).toNat : Int) ≤ (low s' rc).toNat := by exact_mod_cast hweight
  refine ⟨_, _, exec_interpQ15 rd ra rb rc s, exec_interpQ15 rd ra rb rc s', ?_⟩
  rw [← hra, ← hrb, interpolate16_toInt, interpolate16_toInt]
  exact ⟨interpolant_mono hw, fun h => interpolant_anti hw h.le⟩

/-! ## `LUT.Q15` (R134, R136) -/

/-- With both words backed, the look-up is the interpolation of the two by the weight byte. -/
theorem exec_lutQ15_of_backed {s : State} (rd : Reg) {ra rb : Reg} {idx w : Nat} (hw : w < 256)
    (hsplit : (low s rb).toNat = 256 * idx + w) (hfirst : s.memValid (element (low s ra) idx) = true)
    (hsecond : s.memValid (element (low s ra) (idx + 1)) = true) :
    exec (.lutQ15 rd ra rb) s = .next (afterWrite16 s [ra, rb] rd
      (interpolate 8 (s.mem.readWord (element (low s ra) idx)) (s.mem.readWord (element (low s ra) (idx + 1))) w)) := by
  obtain ⟨hupper, hlower⟩ := upperByte_lowerByte_of_toNat hw hsplit
  rw [execLutQ15_next_iff]
  simp only [State.xlo_eq_low, seqAddr_eq_element, hupper, unsigned, hlower]
  exact ⟨_, _, memRead_of_backed (s := s.noteReads [ra, rb]) hfirst, memRead_of_backed (s := s.noteReads [ra, rb]) hsecond,
    (State.complete16_eq_afterWrite16 _ _ _ _).symm⟩

/-- Settles O15: the formula is the model's interpolation at 8 bits, unfolded. -/
theorem tableLookUpInterpolatesTwoWords : Obligations.TableLookUpInterpolatesTwoWords :=
  fun _ rd _ _ _ _ hw hsplit hfirst hsecond => exec_lutQ15_of_backed rd hw hsplit hfirst hsecond

/-- Settles O29: the look-up's interpolation at 8 bits is the two-point one at 16, whose samples it stays between. -/
theorem tableLookUpIsTwoPointInterpolation : Obligations.TableLookUpIsTwoPointInterpolation := by
  intro s rd ra rb idx w hw hsplit hfirst hsecond
  have hle : (w : Int) ≤ 2 ^ 8 := by exact_mod_cast hw.le
  obtain ⟨hlow, hhigh⟩ := interpolate_between (by decide) (s.mem.readWord (element (low s ra) idx))
    (s.mem.readWord (element (low s ra) (idx + 1))) (Int.natCast_nonneg w) hle
  refine ⟨_, exec_lutQ15_of_backed rd hw hsplit hfirst hsecond, fun hzero => ?_, hlow, hhigh, ?_⟩
  · rw [hzero]
    exact interpolate_zero (by decide) _ _
  · intro s' rd' ra' rb' rc' hra hrb hrc
    rw [exec_interpQ15, hra, hrb, hrc, interpolate8_eq_interpolate16, Nat.cast_mul, Nat.cast_ofNat]

end Sys2Proof.Machine
end

section
/-! PROOF. The sine at a segment's first input, where only the intercept counts (spec/45_sine.md R143), and so at 0, whose
intercept is the one ROM word the spec fixes (R144 (1)). -/

namespace Sys2Proof.Machine

open Sys2Proof.Claims

/-- The first input of a segment gives the segment's intercept exactly, whatever the slope (R143). -/
theorem exec_sinQ15_of_segment_start {s : State} (rd : Reg) {ra : Reg} {u : Nat} (hu : u < 256)
    (hstart : (low s ra).toNat = 256 * u) :
    exec (.sinQ15 rd ra) s = .next (afterWrite16 s [ra] rd (s.sinRom[2 * u + 1]'(by omega))) := by
  rw [sineEvaluatesItsSegment s rd ra u 0 hu (by decide) hstart, Nat.cast_zero, mul_zero, Int.zero_fdiv, add_zero,
    BitVec.ofInt_toInt]

/-- The ROM of the state after reset meets the invariant, whose ROM clause is the intercept of segment 0. -/
theorem sinRom_reset_one : State.reset.sinRom[1] = 0 := by
  obtain ⟨-, -, hrom, -⟩ := resetMeetsTheInvariant
  exact hrom

/-- Settles O31: 0 is the first input of segment 0, whose intercept is 0 in the ROM after reset. -/
theorem sineOfZeroIsZero : Obligations.SineOfZeroIsZero := by
  intro s rd ra hrom hzero
  have hintercept : s.sinRom[1] = 0 := by simpa only [hrom] using sinRom_reset_one
  rw [exec_sinQ15_of_segment_start rd (u := 0) (by decide) (by rw [hzero]; rfl), hintercept]

end Sys2Proof.Machine
end

section
/-! PROOF. What a command word can raise (spec/60_exceptions.md R160, R161): a command raises nothing and only a table look-up
can stop, at an unbacked word (R43); an illegal word sets ILL and marks the run (R162). -/

namespace Sys2Proof.Machine

open Sys2Proof.Claims

/-! ## Commands -/

/-- A command that is neither the vector multiply nor a table look-up always answers a next state: it reads no memory (R43). -/
theorem exec_answers_next_of_not_lut {i : Instr} {rd : Reg} (hd : i.dest = some rd) (hlut : ∀ ra rb, i ≠ .lutQ15 rd ra rb)
    (s : State) : ∃ t, exec i s = .next t := by
  cases i
  case vmulQ15Q16 => cases hd
  case lutQ15 _ ra rb => cases hd; exact absurd rfl (hlut ra rb)
  case divQ16Q16 rd ra rb =>
    by_cases hzero : low s rb = 0
    · exact ⟨_, exec_divQ16Q16_of_eq_zero rd ra hzero⟩
    · exact ⟨_, exec_divQ16Q16_of_ne_zero rd ra hzero⟩
  all_goals exact ⟨_, rfl⟩

/-- A table look-up answers a next state, or sticks at the first of its two words that is not backed (R134, R43). -/
theorem execLutQ15_next_or_unbacked (rd ra rb : Reg) (s : State) :
    (∃ t, exec (.lutQ15 rd ra rb) s = .next t) ∨
      ∃ a, s.memValid a = false ∧ exec (.lutQ15 rd ra rb) s = .fault (.unbackedAccess a (readMarks s [ra, rb])) := by
  cases hfirst : s.memValid (seqAddr (s.xlo ra) (upperByte (s.xlo rb)).toNat) with
  | false => exact .inr ⟨_, hfirst, execLutQ15_first_unbacked hfirst⟩
  | true =>
    cases hsecond : s.memValid (seqAddr (s.xlo ra) ((upperByte (s.xlo rb)).toNat + 1)) with
    | false => exact .inr ⟨_, hsecond, execLutQ15_second_unbacked hfirst hsecond⟩
    | true =>
      exact .inl ⟨_, execLutQ15_next_iff.mpr ⟨_, _, memRead_of_backed (s := s.noteReads [ra, rb]) hfirst,
        memRead_of_backed (s := s.noteReads [ra, rb]) hsecond, rfl⟩⟩

/-- All a command can answer: a next state, or the fault of a table look-up at a word that is not backed. -/
theorem exec_next_or_lut_unbacked (i : Instr) (s : State) :
    (∃ t, exec i s = .next t) ∨
      ∃ rd ra rb a, i = .lutQ15 rd ra rb ∧ s.memValid a = false ∧
        exec i s = .fault (.unbackedAccess a (readMarks s [ra, rb])) := by
  cases hd : i.dest with
  | none =>
    obtain ⟨rd, ra, rb, rc, rfl⟩ := eq_vmul_of_dest_none hd
    obtain ⟨v, m, n, hnext, -⟩ := execVmul_next rd ra rb rc s
    exact .inl ⟨_, hnext⟩
  | some rd =>
    by_cases hlut : ∃ ra rb, i = .lutQ15 rd ra rb
    · obtain ⟨ra, rb, rfl⟩ := hlut
      refine (execLutQ15_next_or_unbacked rd ra rb s).imp_right ?_
      rintro ⟨a, hinvalid, hfault⟩
      exact ⟨rd, ra, rb, a, rfl, hinvalid, hfault⟩
    · push Not at hlut
      exact .inl (exec_answers_next_of_not_lut hd hlut s)

/-- A vector multiply can add the marks of rows 3 and 5, never that of row 1 (R115, R163). -/
theorem execVmul_keeps_illegalWord {rd ra rb rc : Reg} {s t : State} (h : exec (.vmulQ15Q16 rd ra rb rc) s = .next t) :
    t.marks.illegalWord = s.marks.illegalWord := by
  simp only [exec, execVmulQ15Q16] at h
  split at h <;> cases h <;> rfl

/-- Executing a command never marks the run as having met an illegal word: row 1 of R163 is no command's. -/
theorem exec_keeps_illegalWord {i : Instr} {s t : State} (h : exec i s = .next t) :
    t.marks.illegalWord = s.marks.illegalWord := by
  cases hd : i.dest with
  | none =>
    obtain ⟨rd, ra, rb, rc, rfl⟩ := eq_vmul_of_dest_none hd
    exact execVmul_keeps_illegalWord h
  | some rd =>
    obtain ⟨v, n, z, rfl⟩ := exec_eq_complete_upto_division hd h
    rfl

/-- Settles O35: a command answers a next state, with ILL and the mark of row 1 as before, or is a look-up that sticks. -/
theorem legalCommandsRaiseNothing : Obligations.LegalCommandsRaiseNothing := by
  intro i s
  refine (exec_next_or_lut_unbacked i s).imp_left ?_
  rintro ⟨t, ht⟩
  obtain ⟨hill, -⟩ := exec_frame ht
  exact ⟨t, ht, hill, exec_keeps_illegalWord ht⟩

/-! ## Illegal words -/

/-- An illegal word raises IllegalCommand, whatever makes it illegal (R62, R161). -/
theorem issue_of_illegal {w : Word} {why : IllegalReason} (hw : decodeWord w = .illegal why) (s : State) :
    issue w s = .next s.raiseIllegal := by
  simp [issue, hw]

/-- Settles O37: on an idle block the write to CMD takes effect, and issuing an illegal word only raises it. -/
theorem illegalWordSetsOnlyIll : Obligations.IllegalWordSetsOnlyIll := by
  intro s w why rest hw hidle hhost
  rw [step_of_host_idle hhost hidle]
  exact issue_of_illegal hw _

end Sys2Proof.Machine
end

section
/-! PROOF. The three rules of spec/70_reset_and_hazards.md: a flight with its words backed finishes (R190), the registers are fixed
while BUSY (R188), and a command whose preconditions hold leaves the run unmarked (R183). -/

namespace Sys2Proof.Machine

open Sys2Proof.Claims

/-! ## A flight finishes (R190) -/

/-- Between two elements, the flight has two accesses for each element left and one step to go. -/
theorem run_finishes_between_elements {s : State} {v : VmulFlight} (hv : s.vmul = some v) (hhost : s.host = [])
    (hfetched : v.fetched = none) (hle : v.index ≤ v.count)
    (hvalid : ∀ i, i < v.count → s.memValid (element v.src i) = true ∧ s.memValid (element v.dst i) = true) :
    ∃ t, Sys2Proof.core.run (2 * (v.count - v.index) + 1) s = .next t ∧ t.busy = false ∧ t.cix = s.cix + 1 :=
  ⟨_, vectorMultiplyRunsTheLoop s v hv hhost hfetched hle (fun i _ hlt => hvalid i hlt), rfl, rfl⟩

/-- Within an element, the write of the word fetched comes first and leaves the flight between two elements. -/
theorem run_finishes_within_element {s : State} {v : VmulFlight} {e : Half} (hv : s.vmul = some v) (hhost : s.host = [])
    (hfetched : v.fetched = some e) (hlt : v.index < v.count)
    (hvalid : ∀ i, i < v.count → s.memValid (element v.src i) = true ∧ s.memValid (element v.dst i) = true) :
    ∃ t, Sys2Proof.core.run (2 * (v.count - (v.index + 1)) + 2) s = .next t ∧ t.busy = false ∧ t.cix = s.cix + 1 := by
  obtain ⟨-, hwrite, -⟩ := vectorMultiplyTakesOneAccessAStep s v hv hhost
  obtain ⟨-, hdst⟩ := hvalid v.index hlt
  rw [run_succ_of_step _ (hwrite e hfetched hdst)]
  exact run_finishes_between_elements (v := { v with index := v.index + 1, fetched := none }) rfl hhost rfl hlt hvalid

/-- Settles O53: a consistent flight stands between two elements or within one, and either is at most `2 * count + 1` steps from
its end. -/
theorem flightFinishes : Obligations.FlightFinishes := by
  rintro s v hv ⟨hle, hpending, -⟩ hhost hvalid
  cases hfetched : v.fetched with
  | none =>
    obtain ⟨t, hrun, hend⟩ := run_finishes_between_elements hv hhost hfetched hle hvalid
    exact ⟨_, t, by omega, hrun, hend⟩
  | some e =>
    have hlt : v.index < v.count := hpending (by simp [hfetched])
    obtain ⟨t, hrun, hend⟩ := run_finishes_within_element hv hhost hfetched hlt hvalid
    exact ⟨_, t, by omega, hrun, hend⟩

/-! ## Registers while BUSY (R188) -/

/-- Short of reset, a host action that does not stall writes no register: every access to ports 0 to 15 stalls, and so does the
issue of a command (R34). -/
theorem performHost_unstalled_keeps_registers {a : HostAction} {s t : State} (ha : a.stalls = false) (hreset : a ≠ .reset)
    (h : performHost a s = .next t) : t.regs = s.regs ∧ t.written = s.written := by
  cases a with
  | readPort p =>
    cases p with
    | reg r => cases ha
    | cmd => cases h; exact ⟨rfl, rfl⟩
    | status => cases h; exact ⟨rfl, rfl⟩
  | writePort p w =>
    cases p with
    | reg r => cases ha
    | cmd => cases ha
    | status => cases h; exact ⟨rfl, rfl⟩
  | readMem a =>
    simp only [performHost] at h
    split at h <;> cases h
    exact ⟨rfl, rfl⟩
  | writeMem a v =>
    simp only [performHost] at h
    split at h <;> cases h
    exact ⟨rfl, rfl⟩
  | reset => exact absurd rfl hreset
  | wait =>
    obtain ⟨hregs, hwritten, -⟩ := blockStep_frame h
    exact ⟨hregs, hwritten⟩

/-- Settles O42: on a busy block a step is the block's own or a host action that does not stall. -/
theorem registersAreFixedWhileBusy : Obligations.RegistersAreFixedWhileBusy := by
  intro s t hstep hbusy hreset
  rcases step_cases s with hblock | ⟨a, rest, hhost, hgo, haction⟩
  · obtain ⟨hregs, hwritten, -⟩ := blockStep_frame (hblock.symm.trans hstep)
    exact ⟨hregs, hwritten⟩
  · have hunstalled : a.stalls = false := by simpa [hbusy] using hgo
    have hne : a ≠ .reset := by simpa [hhost] using hreset
    exact performHost_unstalled_keeps_registers (s := { s with host := rest }) hunstalled hne (haction.symm.trans hstep)

/-! ## A command whose preconditions hold (R183) -/

/-- Reading registers that are all written adds no mark (R23). -/
theorem readMarks_of_written {s : State} {srcs : List Reg} (h : ∀ r ∈ srcs, s.isWritten r = true) :
    readMarks s srcs = s.marks := by
  have hnone : (srcs.any fun r => !s.written[r.val]) = false := by
    simpa [State.isWritten] using h
  simp [readMarks, hnone]

/-- A look-up in a table whose 257 words are all backed can read its two words, whatever its index (R134). -/
theorem exec_lutQ15_of_backsSeq {s : State} (rd rb : Reg) {ra : Reg} (h : s.backsSeq (s.xlo ra) 257) :
    ∃ v, exec (.lutQ15 rd ra rb) s = .next (afterWrite s [ra, rb] rd v) := by
  have hidx := (upperByte (s.xlo rb)).isLt
  have hfirst := h (upperByte (s.xlo rb)).toNat (by omega)
  have hsecond := h ((upperByte (s.xlo rb)).toNat + 1) (by omega)
  exact ⟨_, execLutQ15_next_iff.mpr ⟨_, _, memRead_of_backed (s := s.noteReads [ra, rb]) hfirst,
    memRead_of_backed (s := s.noteReads [ra, rb]) hsecond, rfl⟩⟩

/-- A register-writing command whose preconditions hold completes on the very state it started from: the look-up does not stick,
and the division does not meet a zero. -/
theorem exec_eq_afterWrite_of_preconditions {i : Instr} {s : State} {rd : Reg} (hd : i.dest = some rd)
    (hpre : Preconditions i s) : ∃ v, exec i s = .next (afterWrite s i.sources rd v) := by
  cases i
  case vmulQ15Q16 => cases hd
  case divQ16Q16 _ ra rb =>
    cases hd
    obtain ⟨-, hne⟩ := hpre
    exact ⟨_, exec_divQ16Q16_of_ne_zero rd ra (State.xlo_eq_low s rb ▸ hne)⟩
  case lutQ15 _ ra rb =>
    cases hd
    obtain ⟨-, htable⟩ := hpre
    exact exec_lutQ15_of_backsSeq rd rb htable
  all_goals
    cases hd
    exact ⟨_, rfl⟩

/-- A command whose preconditions hold answers a next state, marked by the reads of its sources alone: neither a zero denominator
nor a zero length is noted (R163). -/
theorem exec_marks_of_preconditions {i : Instr} {s : State} (hpre : Preconditions i s) :
    ∃ t, exec i s = .next t ∧ t.marks = readMarks s i.sources := by
  cases hd : i.dest with
  | none =>
    obtain ⟨rd, ra, rb, rc, rfl⟩ := eq_vmul_of_dest_none hd
    obtain ⟨-, hlen, -⟩ := hpre
    exact ⟨_, vectorMultiplyLatchesItsOperands s rd ra rb rc (State.xlo_eq_low s rc ▸ hlen), rfl⟩
  | some rd =>
    obtain ⟨v, hnext⟩ := exec_eq_afterWrite_of_preconditions hd hpre
    exact ⟨_, hnext, rfl⟩

/-- Settles O36: with every source written, the reads add no mark either, and no command touches ILL. -/
theorem preconditionsKeepTheRunUnmarked : Obligations.PreconditionsKeepTheRunUnmarked := by
  intro i s hpre
  have ⟨hwritten, _⟩ := hpre
  obtain ⟨t, hnext, hread⟩ := exec_marks_of_preconditions hpre
  have hmarks : t.marks = s.marks := hread.trans (readMarks_of_written hwritten)
  obtain ⟨hill, -⟩ := exec_frame hnext
  exact ⟨t, hnext, hmarks, by simp only [State.faulted, hill, hmarks]⟩

end Sys2Proof.Machine
end
